-- ==== Sys2Proof/Word.lean ====
section
/-! DEFINITION. The machine's words: a byte of the buffer, the 32-bit control word of a packed
command and the 64-bit value ports (00_scope.md R5, 30_encoding.md R61, R66). -/

namespace Sys2Proof

/-- One byte of the buffer, `BYTE_W` = 8 bits (00_scope.md R5). -/
abbrev Byte := BitVec 8

/-- The 32-bit control word of a packed command (30_encoding.md R66). -/
abbrev Ctl := BitVec 32

/-- A value on `wdata` or `rdata`, `DATA_W` = 64 bits (00_scope.md R5). -/
abbrev Data := BitVec 64

end Sys2Proof
end

