-- ==== Sys2Proof/Syntax.lean ====
section
/-! DEFINITION. Commands: the packed form a caller presents (30_encoding.md R66) and the ten
operations it can ask for (30_encoding.md R63, R72). -/

namespace Sys2Proof

/-- A packed command: the control word and the value word (30_encoding.md R66). Every command has
this one length (R68). -/
structure Command where
  ctl   : Ctl
  wdata : Data
deriving DecidableEq, Repr

/-- The fields of a control word (30_encoding.md R61, R66). -/
structure Fields where
  op     : BitVec 4
  bitW   : BitVec 4
  bitOff : BitVec 3
  idx    : BitVec 20
deriving DecidableEq, Repr

/-- The ten operations of 30_encoding.md R63, operands in the order of R72 without the buffer:
byte index, then bit offset and bit width, then the value. Index, bit offset and bit width are the
natural numbers their fields encode (R64); a value is the 64 bits of `wdata`. -/
inductive Instr where
  | getU8   (i : Nat)
  | getU16  (i : Nat)
  | getU32  (i : Nat)
  | getU64  (i : Nat)
  | getBits (i o w : Nat)
  | setU8   (i : Nat) (v : Data)
  | setU16  (i : Nat) (v : Data)
  | setU32  (i : Nat) (v : Data)
  | setU64  (i : Nat) (v : Data)
  | setBits (i o w : Nat) (v : Data)
deriving DecidableEq, Repr

end Sys2Proof
end

