-- ==== Sys2Proof/WellFormed.lean ====
section
/-! DEFINITION. Well-formed operations: those whose operands fit the fields of the packed command
(30_encoding.md R61, R66). Whether an operation is DEFINED (its preconditions, 60_exceptions.md
R191) is another question, settled in Machine/. -/

namespace Sys2Proof

/-- The index fits `ctl[19:0]` (30_encoding.md R66). -/
def fitsIdx (i : Nat) : Bool := decide (i < 2 ^ 20)

/-- The bit offset fits the 3 bits of `bit_off` (30_encoding.md R61). -/
def fitsBitOff (o : Nat) : Bool := decide (o < 8)

/-- The bit width fits the 4 bits of `bit_w`, which holds 0 and 9 to 15 too (30_encoding.md R61). -/
def fitsBitW (w : Nat) : Bool := decide (w < 16)

/-- Every operand fits its field. -/
def Instr.wf : Instr → Bool
  | .getU8 i          => fitsIdx i
  | .getU16 i         => fitsIdx i
  | .getU32 i         => fitsIdx i
  | .getU64 i         => fitsIdx i
  | .getBits i o w    => fitsIdx i && fitsBitOff o && fitsBitW w
  | .setU8 i _        => fitsIdx i
  | .setU16 i _       => fitsIdx i
  | .setU32 i _       => fitsIdx i
  | .setU64 i _       => fitsIdx i
  | .setBits i o w _  => fitsIdx i && fitsBitOff o && fitsBitW w

end Sys2Proof
end

