-- ==== Sys2Proof/Decode.lean ====
section
/-! DEFINITION. From control words to operations and back (30_encoding.md R63 to R71). -/

namespace Sys2Proof

/-- Why a command decodes to no operation. -/
inductive Reject where
  /-- One of the six reserved `op` values (30_encoding.md R70). -/
  | reservedOpcode (op : BitVec 4)
deriving DecidableEq, Repr

/-- The slices of 30_encoding.md R66. Bit 23 is ignored. Defined on all `2^32` words (R67). -/
def decodeFields (ctl : Ctl) : Fields :=
  { op     := ctl.extractLsb' 28 4
    bitW   := ctl.extractLsb' 24 4
    bitOff := ctl.extractLsb' 20 3
    idx    := ctl.extractLsb' 0 20 }

/-- The operation a set of fields and a value select: the opcode map of 30_encoding.md R63. A field
the operation's format does not use is ignored (R65). -/
def Fields.toInstr (f : Fields) (v : Data) : Except Reject Instr :=
  let i := f.idx.toNat
  let o := f.bitOff.toNat
  let w := f.bitW.toNat
  match f.op.toNat with
  | 0x0 => .ok (.getU8 i)
  | 0x1 => .ok (.getU16 i)
  | 0x2 => .ok (.getU32 i)
  | 0x3 => .ok (.getU64 i)
  | 0x4 => .ok (.getBits i o w)
  | 0x8 => .ok (.setU8 i v)
  | 0x9 => .ok (.setU16 i v)
  | 0xA => .ok (.setU32 i v)
  | 0xB => .ok (.setU64 i v)
  | 0xC => .ok (.setBits i o w v)
  | _   => .error (.reservedOpcode f.op)

/-- Decoding a command: total, a reserved opcode rejected by name (30_encoding.md R67, R70). -/
def decode (c : Command) : Except Reject Instr :=
  (decodeFields c.ctl).toInstr c.wdata

/-- The encoder of 30_encoding.md R67: `(op << 28) | (bit_w << 24) | (bit_off << 20) | idx`. -/
def encodeFields (f : Fields) : Ctl :=
  (f.op.setWidth 32 <<< 28) ||| (f.bitW.setWidth 32 <<< 24) |||
    (f.bitOff.setWidth 32 <<< 20) ||| f.idx.setWidth 32

/-- The opcode of an operation (30_encoding.md R63). -/
def Instr.opcode : Instr → BitVec 4
  | .getU8 _        => 0x0#4
  | .getU16 _       => 0x1#4
  | .getU32 _       => 0x2#4
  | .getU64 _       => 0x3#4
  | .getBits _ _ _  => 0x4#4
  | .setU8 _ _      => 0x8#4
  | .setU16 _ _     => 0x9#4
  | .setU32 _ _     => 0xA#4
  | .setU64 _ _     => 0xB#4
  | .setBits _ _ _ _ => 0xC#4

/-- The fields of an operation without bit-field operands (formats RI and WI of 30_encoding.md R65):
the ignored fields are zero, the canonical encoding. -/
def wholeByteFields (op : BitVec 4) (i : Nat) : Fields :=
  { op := op, bitW := 0#4, bitOff := 0#3, idx := BitVec.ofNat 20 i }

/-- The fields of a bit-field operation (formats RB and WB of 30_encoding.md R65). -/
def bitFieldFields (op : BitVec 4) (i o w : Nat) : Fields :=
  { op := op, bitW := BitVec.ofNat 4 w, bitOff := BitVec.ofNat 3 o, idx := BitVec.ofNat 20 i }

/-- The fields of an operation in its canonical encoding. -/
def Instr.fields : Instr → Fields
  | .getU8 i         => wholeByteFields 0x0#4 i
  | .getU16 i        => wholeByteFields 0x1#4 i
  | .getU32 i        => wholeByteFields 0x2#4 i
  | .getU64 i        => wholeByteFields 0x3#4 i
  | .getBits i o w   => bitFieldFields 0x4#4 i o w
  | .setU8 i _       => wholeByteFields 0x8#4 i
  | .setU16 i _      => wholeByteFields 0x9#4 i
  | .setU32 i _      => wholeByteFields 0xA#4 i
  | .setU64 i _      => wholeByteFields 0xB#4 i
  | .setBits i o w _ => bitFieldFields 0xC#4 i o w

/-- The value word of an operation: `wdata` for a write, the canonical zero for a read, which
ignores it (30_encoding.md R65). -/
def Instr.value : Instr → Data
  | .getU8 _         => 0#64
  | .getU16 _        => 0#64
  | .getU32 _        => 0#64
  | .getU64 _        => 0#64
  | .getBits _ _ _   => 0#64
  | .setU8 _ v       => v
  | .setU16 _ v      => v
  | .setU32 _ v      => v
  | .setU64 _ v      => v
  | .setBits _ _ _ v => v

/-- The canonical packed command of an operation (30_encoding.md R66, R67). -/
def encode (i : Instr) : Command :=
  { ctl := encodeFields i.fields, wdata := i.value }

/-- The command whose bits are `w`, numbered as the opcode table numbers them: `ctl` is bits 31..0,
`wdata` bits 95..32, every bit at or above `nbits` is 0 (log entry 11). -/
def commandOfTableWord (nbits w : Nat) : Command :=
  let bits : BitVec 96 := BitVec.ofNat 96 (w % 2 ^ nbits)
  { ctl := bits.extractLsb' 0 32, wdata := bits.extractLsb' 32 64 }

/-- The instruction the decoder reads from a table word. -/
def decodeTableWord (nbits w : Nat) : Option Instr :=
  match decode (commandOfTableWord nbits w) with
  | .ok i    => some i
  | .error _ => none

end Sys2Proof
end

