-- ==== Sys2Proof/Config.lean ====
section
/-! DEFINITION. What is fixed for a machine: the parameters of 00_scope.md R5 that the spec leaves
open, and the byte an unlisted index of the buffer reads as. -/

namespace Sys2Proof

/-- The OPEN parameters of 00_scope.md R5 (decision D7): `IDX_W`, the width of the index port, and
`BUF_LEN`, the number of bytes in the buffer. They never change during a run (10_state.md R18). -/
structure Cfg where
  idxW   : Nat
  bufLen : Nat
deriving DecidableEq, Repr

/-- The bounds 00_scope.md R5 puts on the parameters: `1 <= IDX_W <= 20` and `BUF_LEN <= 2^IDX_W`. -/
def Cfg.legal (c : Cfg) : Bool :=
  decide (1 ≤ c.idxW) && decide (c.idxW ≤ 20) && decide (c.bufLen ≤ 2 ^ c.idxW)

/-- DESIGN CHOICE (log entry 1, unsafe): the configuration of `State.reset`. 16 is the default R5
names for `IDX_W`; 16 is the `BUF_LEN` of the spec's vectors. No statement rests on it. -/
def Cfg.atReset : Cfg := { idxW := 16, bufLen := 16 }

/-- DESIGN CHOICE (log entry 2, unsafe): what a byte of the buffer that memory does not list reads
as. The spec leaves the initial contents to the caller (10_state.md R21, decision D13). -/
def fillByte : Byte := 0x00#8

/-- Byte lanes of the buffer port, the largest `N/8` (00_scope.md R5). -/
def laneCount : Nat := 8

end Sys2Proof
end

