-- ==== Sys2Proof/Machine/Operands.lean ====
section
/-! DEFINITION. Operand forms and the value computations shared by the operations: byte slices and
their joining (41_multibyte_fields.md R100, R104), the mask and the bit-field formulas
(42_bit_fields.md R120 to R125), access sizes (20_memory.md R37). The operators `>>`, `<<`, `&`, `|`,
`~` are read as 00_scope.md R7 reads them (log entry 10). -/

namespace Sys2Proof.Machine

/-- `v[8k+7:8k]`, the byte of `v` that lane `k` carries (41_multibyte_fields.md R104). -/
def byteSlice (v : Data) (k : Nat) : Byte := v.extractLsb' (8 * k) 8

/-- The bytes a whole-byte write of `n` bytes stores, lowest index first (41_multibyte_fields.md
R104). Bits of `v` at or above `8n` are not used (30_encoding.md R64). -/
def laneBytes (n : Nat) (v : Data) : List Byte := (List.range n).map (byteSlice v)

/-- The unsigned value of consecutive bytes, the first least significant, zero-extended to the 64
bits of `rdata` (41_multibyte_fields.md R100, 30_encoding.md R62). -/
def joinBytes : List Byte → Data
  | []      => 0#64
  | b :: bs => b.setWidth 64 ||| (joinBytes bs <<< 8)

/-- `mask(w) = (1 << w) - 1`, computed in 9 bits and truncated to 8 (42_bit_fields.md R120). Used
for `w` in 1 to 8 only: no outcome depends on its value elsewhere (log entry 13). -/
def mask (w : Nat) : Byte := ((1#9 <<< w) - 1#9).setWidth 8

/-- The select pattern `mask(w) << o` (42_bit_fields.md R123). -/
def sel (o w : Nat) : Byte := mask w <<< o

/-- `(v & mask(w)) << o`, the field's bits in place (42_bit_fields.md R125). -/
def ins (o w : Nat) (v : Data) : Byte := ((v &&& (mask w).setWidth 64) <<< o).setWidth 8

/-- `(b >> o) & mask(w)`, what `get_bits` returns of a byte (42_bit_fields.md R124). -/
def extractBits (b : Byte) (o w : Nat) : Byte := (b >>> o) &&& mask w

/-- `(old & ~sel) | ins`, what `set_bits` makes of a byte (42_bit_fields.md R125). -/
def insertBits (old : Byte) (o w : Nat) (v : Data) : Byte :=
  (old &&& ~~~ (sel o w)) ||| ins o w v

/-- The 36 legal pairs of bit offset and bit width (42_bit_fields.md R122). -/
def legalPair (o w : Nat) : Bool := decide (1 ≤ w) && decide (w ≤ 8) && decide (o + w ≤ 8)

/-- The byte index operand of an operation (30_encoding.md R61). -/
def index : Instr → Nat
  | .getU8 i         => i
  | .getU16 i        => i
  | .getU32 i        => i
  | .getU64 i        => i
  | .getBits i _ _   => i
  | .setU8 i _       => i
  | .setU16 i _      => i
  | .setU32 i _      => i
  | .setU64 i _      => i
  | .setBits i _ _ _ => i

/-- The access size of an operation in bytes (20_memory.md R37). -/
def accessBytes : Instr → Nat
  | .getU8 _         => 1
  | .getU16 _        => 2
  | .getU32 _        => 4
  | .getU64 _        => 8
  | .getBits _ _ _   => 1
  | .setU8 _ _       => 1
  | .setU16 _ _      => 2
  | .setU32 _ _      => 4
  | .setU64 _ _      => 8
  | .setBits _ _ _ _ => 1

/-- Whether an operation is one of the five writes (30_encoding.md R63). -/
def isWrite : Instr → Bool
  | .getU8 _         => false
  | .getU16 _        => false
  | .getU32 _        => false
  | .getU64 _        => false
  | .getBits _ _ _   => false
  | .setU8 _ _       => true
  | .setU16 _ _      => true
  | .setU32 _ _      => true
  | .setU64 _ _      => true
  | .setBits _ _ _ _ => true

/-- Whether an operation reads the bytes of its field: the five reads and `set_bits`; a whole-byte
write reads nothing (20_memory.md R37). -/
def readsBytes : Instr → Bool
  | .getU8 _         => true
  | .getU16 _        => true
  | .getU32 _        => true
  | .getU64 _        => true
  | .getBits _ _ _   => true
  | .setU8 _ _       => false
  | .setU16 _ _      => false
  | .setU32 _ _      => false
  | .setU64 _ _      => false
  | .setBits _ _ _ _ => true

/-- Whether index `a` is one of the bytes of the operation's field, the only bytes it may read or
write (20_memory.md R37). -/
def inField (i : Instr) (a : Nat) : Bool :=
  decide (index i ≤ a) && decide (a < index i + accessBytes i)

end Sys2Proof.Machine
end

