-- ==== Sys2Proof/Machine/Flags.lean ====
section
/-! DEFINITION. Flags. There are none: "The accessor has no flag, no condition code and no
predicate. No operation records carry, overflow, zero, truncation or error." (10_state.md R12). So
State has no flag and this file defines nothing: no operation computes one, and a truncation is
silent (30_encoding.md R64). -/
end

