-- ==== Sys2Proof/Machine/State.lean ====
section
/-! DEFINITION. The machine's state (10_state.md), the reasons a step can stop, and the state after
reset. -/

namespace Sys2Proof.Machine

/-- The contents of the buffer: the listed bytes, indices strictly rising, none listed that equals
`fillByte`, which an unlisted index reads as. `Memory.wf` (Ops.lean) says so. -/
abbrev Memory := List Host.Cell

/-- Everything a step reads or changes. `buf` is the only state the spec gives the machine
(10_state.md R17). `cfg` is configuration, which no step changes (log entry 1). `pending` and
`results` are the MODEL's own: the commands the caller has still to issue (log entry 3) and the
read results it has been handed, oldest first (log entry 5). -/
structure State where
  cfg     : Cfg
  buf     : Memory
  pending : List Command
  results : List Data
deriving DecidableEq, Repr

/-- The hardware raises no exception, no trap and no interrupt: the number of causes is zero
(60_exceptions.md R190, R196, R198). So nothing raises a fault. -/
inductive Fault where
deriving DecidableEq, Repr

/-- Why the model gives a step no meaning (60_exceptions.md R191, R192; log entry 6). Each refusal of undefined
behaviour is SAFE: the hardware goes on in some way nothing promises, the model stops. -/
inductive Refusal where
  /-- Raised by `exec` alone, for an instruction without a meaning. No arm of `exec` raises it. Safe. -/
  | notModelled (mnemonic : String)
  /-- U1, raised by all ten operations: a byte of the field lies outside the buffer (20_memory.md
  R38). Safe. -/
  | outOfRange
  /-- U2, raised by `get_bits` and `set_bits`: `offset + width > 8` (42_bit_fields.md R122). Safe. -/
  | fieldCrossesByte
  /-- U3, raised by `get_bits` and `set_bits`: the width is not in 1 to 8 (42_bit_fields.md R122).
  Safe. -/
  | badWidth
  /-- U6, raised by `step`: the `op` field is one of the six reserved values (30_encoding.md R70).
  Safe. -/
  | reservedOpcode (op : BitVec 4)
deriving DecidableEq, Repr

/-- The three outcomes of a step of this machine. -/
abbrev Result := Host.Outcome State Fault Refusal

/-- The start of a run (70_reset_and_hazards.md R221, R224): the caller's configuration, buffer and
command list, and no result yet. There is one requester (log entry 7). -/
def State.start (cfg : Cfg) (buf0 : Memory) (cmds : List Command) : State :=
  { cfg := cfg, buf := buf0, pending := cmds, results := [] }

/-- The machine right after reset. The accessor has nothing to reset (70_reset_and_hazards.md R220);
configuration, buffer and command list are the caller's, and the values here are DESIGN CHOICEs of
log entries 1, 2, 3 and 5 (unsafe). -/
def State.reset : State := State.start Cfg.atReset [] []

end Sys2Proof.Machine
end

