-- ==== Sys2Proof/Machine/Ops.lean ====
section
/-! DEFINITION. The named operations over the buffer and the command port, and the one shared way an
operation ends: refused where a precondition fails, else in its next state. There is no exception
to take and none to return from (60_exceptions.md R190, R198, R199). -/

namespace Sys2Proof.Machine

/-- The byte at an index. -/
def Memory.read : Memory → Nat → Byte
  | [], _          => fillByte
  | (x, y) :: m, a => if a = x then y else Memory.read m a

/-- Store a byte at an index, keeping the canonical form: a byte equal to `fillByte` is not listed. -/
def Memory.write : Memory → Nat → Byte → Memory
  | [], a, b => if b = fillByte then [] else [(a, b)]
  | (x, y) :: m, a, b =>
    if a < x then (if b = fillByte then (x, y) :: m else (a, b) :: (x, y) :: m)
    else if a = x then (if b = fillByte then m else (a, b) :: m)
    else (x, y) :: Memory.write m a b

/-- Store consecutive bytes from an index on. -/
def Memory.writeAll : Memory → Nat → List Byte → Memory
  | m, _, []      => m
  | m, a, b :: bs => Memory.writeAll (Memory.write m a b) (a + 1) bs

/-- The canonical form: indices strictly rising, no byte listed that equals `fillByte`. -/
def Memory.wf : Memory → Bool
  | []          => true
  | (x, y) :: m => decide (y ≠ fillByte) && m.all (fun c => decide (x < c.1)) && Memory.wf m

/-- No byte is listed at or above an index: the buffer ends at `BUF_LEN` (20_memory.md R31). -/
def Memory.below (m : Memory) (len : Nat) : Bool := m.all (fun c => decide (c.1 < len))

/-- The buffer whose bytes, from index 0 on, are the given ones: how a caller's `buf0` is laid down
(70_reset_and_hazards.md R221). -/
def Memory.ofBytes (bs : List Byte) : Memory := Memory.writeAll [] 0 bs

/-- `buf[a]` (00_scope.md R8). -/
def State.byteAt (s : State) (a : Nat) : Byte := s.buf.read a

/-- `InRange(i, n)`: `i + n <= BUF_LEN`, the sum a natural number that never wraps (00_scope.md R8,
20_memory.md R38, R39). -/
def inRange (c : Cfg) (i n : Nat) : Bool := decide (i + n ≤ c.bufLen)

/-- `MemRead(i, n)`: the bytes `buf[i] .. buf[i+n-1]` (00_scope.md R8). -/
def State.memRead (s : State) (i n : Nat) : List Byte :=
  (List.range n).map (fun k => s.byteAt (i + k))

/-- `MemWrite(i, n, b)`: store the bytes at `buf[i] ..` (00_scope.md R8). -/
def State.memWrite (s : State) (i : Nat) (bs : List Byte) : State :=
  { s with buf := s.buf.writeAll i bs }

/-- A read hands its result to the caller (30_encoding.md R62, 70_reset_and_hazards.md R224). -/
def State.deliver (s : State) (r : Data) : State :=
  { s with results := s.results ++ [r] }

/-- The precondition of a whole-byte operation of access size `n` (20_memory.md R38): `none` where it
holds, else the refusal. -/
def rangePre (c : Cfg) (i n : Nat) : Option Refusal :=
  if inRange c i n then none else some .outOfRange

/-- `BitPre(i, o, w)` of 42_bit_fields.md R122, in the order R122 and 60_exceptions.md R193 name: U3,
then U2, then U1. -/
def bitPre (c : Cfg) (i o w : Nat) : Option Refusal :=
  if ¬ (1 ≤ w ∧ w ≤ 8) then some .badWidth
  else if ¬ (o + w ≤ 8) then some .fieldCrossesByte
  else rangePre c i 1

/-- How every operation ends: a failed precondition refuses the step, no value and no effect given
(60_exceptions.md R192); otherwise the step completes in its next state (20_memory.md R44). -/
def whenDefined (pre : Option Refusal) (t : State) : Result :=
  match pre with
  | none   => .next t
  | some r => .refused r

/-- The read schema `get_uN` with `n = N/8` bytes (41_multibyte_fields.md R100; `n = 1` is `get_u8`,
90_conflicts.md C5). -/
def readField (n i : Nat) (s : State) : Result :=
  whenDefined (rangePre s.cfg i n) (s.deliver (joinBytes (s.memRead i n)))

/-- The write schema `set_uN` with `n = N/8` bytes (41_multibyte_fields.md R104; `n = 1` is
`set_u8`). -/
def writeField (n i : Nat) (v : Data) (s : State) : Result :=
  whenDefined (rangePre s.cfg i n) (s.memWrite i (laneBytes n v))

/-- The command port: the command the caller presents next, with the rest of its list, or none. -/
def nextCommand (s : State) : Option (Command × State) :=
  match s.pending with
  | []        => none
  | c :: rest => some (c, { s with pending := rest })

/-- The caller presents a command before those it has still to issue. -/
def State.present (s : State) (c : Command) : State := { s with pending := c :: s.pending }

/-- No command is presented, `cmd_valid = 0`: nothing happens and the buffer keeps its contents
(44_blocks.md R176; log entry 4). -/
def idle (s : State) : Result := .next s

/-- A reserved opcode is presented: U6 (30_encoding.md R70). -/
def refuseReject : Reject → Result
  | .reservedOpcode op => .refused (.reservedOpcode op)

end Sys2Proof.Machine
end

