-- ==== Sys2Proof/Machine/BitField.lean ====
section
/-! DEFINITION. Bit field operations (42_bit_fields.md). -/

namespace Sys2Proof.Machine

/-- `get_bits(buf, i, offset, width)` (42_bit_fields.md R124). -/
def execGetBits (i o w : Nat) (s : State) : Result :=
  whenDefined (bitPre s.cfg i o w) (s.deliver ((extractBits (s.byteAt i) o w).setWidth 64))

/-- `set_bits(buf, i, offset, width, v)` (42_bit_fields.md R125). -/
def execSetBits (i o w : Nat) (v : Data) (s : State) : Result :=
  whenDefined (bitPre s.cfg i o w) (s.memWrite i [insertBits (s.byteAt i) o w v])

end Sys2Proof.Machine
end

