-- ==== Sys2Proof/Machine/ByteField.lean ====
section
/-! DEFINITION. Byte field operations (40_byte_field.md). -/

namespace Sys2Proof.Machine

/-- `get_u8(buf, i)` (40_byte_field.md R90). -/
def execGetU8 (i : Nat) (s : State) : Result := readField 1 i s

/-- `set_u8(buf, i, v)` (40_byte_field.md R91). -/
def execSetU8 (i : Nat) (v : Data) (s : State) : Result := writeField 1 i v s

end Sys2Proof.Machine
end

