-- ==== Sys2Proof/Machine/MultiByte.lean ====
section
/-! DEFINITION. 16, 32 and 64-bit field operations (41_multibyte_fields.md). -/

namespace Sys2Proof.Machine

/-- `get_u16(buf, i)` (41_multibyte_fields.md R101). -/
def execGetU16 (i : Nat) (s : State) : Result := readField 2 i s

/-- `get_u32(buf, i)` (41_multibyte_fields.md R102). -/
def execGetU32 (i : Nat) (s : State) : Result := readField 4 i s

/-- `get_u64(buf, i)` (41_multibyte_fields.md R103). -/
def execGetU64 (i : Nat) (s : State) : Result := readField 8 i s

/-- `set_u16(buf, i, v)` (41_multibyte_fields.md R105). -/
def execSetU16 (i : Nat) (v : Data) (s : State) : Result := writeField 2 i v s

/-- `set_u32(buf, i, v)` (41_multibyte_fields.md R106). -/
def execSetU32 (i : Nat) (v : Data) (s : State) : Result := writeField 4 i v s

/-- `set_u64(buf, i, v)` (41_multibyte_fields.md R107). -/
def execSetU64 (i : Nat) (v : Data) (s : State) : Result := writeField 8 i v s

end Sys2Proof.Machine
end

