-- ==== Sys2Proof/Machine/Dispatch.lean ====
section
/-! DEFINITION. One arm per operation of the opcode map (30_encoding.md R63). -/

namespace Sys2Proof.Machine

def exec (i : Instr) (s : State) : Host.Outcome State Fault Refusal :=
  match i with
  | .getU8 a => Sys2Proof.Machine.execGetU8 a s
  | .getU16 a => Sys2Proof.Machine.execGetU16 a s
  | .getU32 a => Sys2Proof.Machine.execGetU32 a s
  | .getU64 a => Sys2Proof.Machine.execGetU64 a s
  | .getBits a o w => Sys2Proof.Machine.execGetBits a o w s
  | .setU8 a v => Sys2Proof.Machine.execSetU8 a v s
  | .setU16 a v => Sys2Proof.Machine.execSetU16 a v s
  | .setU32 a v => Sys2Proof.Machine.execSetU32 a v s
  | .setU64 a v => Sys2Proof.Machine.execSetU64 a v s
  | .setBits a o w v => Sys2Proof.Machine.execSetBits a o w v s

end Sys2Proof.Machine
end

