-- ==== Sys2Proof/Machine/Step.lean ====
section
/-! DEFINITION. One step: the next command of the caller is decoded and performed (30_encoding.md
R60, 20_memory.md R44). The hardware has no program counter and fetches nothing (10_state.md R11);
the command port is the head of the caller's list (log entry 3). -/

namespace Sys2Proof.Machine

/-- One command, one atomic step, without a clock (20_memory.md R44; log entry 12); with no command presented, idle. -/
def step (s : State) : Host.Outcome State Fault Refusal :=
  match nextCommand s with
  | none => idle s
  | some (c, t) =>
    match decode c with
    | .ok i    => exec i t
    | .error r => refuseReject r

/-- `s` with the table word's command presented, so that the next step decodes and performs it
(log entry 11). -/
def State.withFetchWord (s : State) (nbits w : Nat) : State := s.present (commandOfTableWord nbits w)

end Sys2Proof.Machine
end

