-- ==== Sys2Proof/Machine/Blocks.lean ====
section
/-! DEFINITION. The five blocks as hardware (44_blocks.md R160 to R179) and the eight byte lanes of
the buffer port (20_memory.md R41, R42): a second, structural description of a step. It uses neither
`decode` nor `exec`, so that its agreement with `step` (R178) says something. Every value the spec
leaves unspecified at a port is a free argument, `Free` (log entry 8): nothing constrains it. The
formulas are evaluated on a defined command only (R177). -/

namespace Sys2Proof.Machine

/-- The command port of an accessor whose index port is `idxW` bits wide (10_state.md R20,
30_encoding.md R61). -/
structure CommandPorts (idxW : Nat) where
  valid  : Bool
  op     : BitVec 4
  idx    : BitVec idxW
  bitOff : BitVec 3
  bitW   : BitVec 4
  wdata  : Data
deriving DecidableEq, Repr

/-- The command port with a packed command's fields on it, `cmd_valid` asserted (30_encoding.md R60).
It is used where the index fits the port: a packed index of `2^IDX_W` or more is no value of the port
and is out of range (30_encoding.md R66; log entry 9). -/
def onPorts (x : Fields) (idxW : Nat) (wdata : Data) : CommandPorts idxW :=
  { valid := true, op := x.op, idx := x.idx.setWidth idxW, bitOff := x.bitOff, bitW := x.bitW
    wdata := wdata }

/-- What the accessor drives on one byte lane, each signal of the width 10_state.md R20 gives it
(20_memory.md R41). -/
structure Lane (idxW : Nat) where
  addr  : BitVec (idxW + 1)
  re    : Bool
  we    : Bool
  wdata : Byte
deriving DecidableEq, Repr

/-- What the accessor drives in one step: the response port and the eight lanes (10_state.md R20). -/
structure Ports (idxW : Nat) where
  rdata : Data
  lanes : List (Lane idxW)
deriving DecidableEq, Repr

/-- The values nothing specifies (93_implementation_defined.md U7, U8, U9): one field for each place
the blocks' rules say "unspecified", of the width of its port. -/
structure Free (idxW : Nat) where
  /-- `m` for a width outside 1 to 8 (44_blocks.md R162). -/
  mask      : Byte
  /-- `ext` where offset and width are not a legal pair (R164). -/
  ext       : Byte
  /-- `merged` where offset and width are not a legal pair (R164). -/
  merged    : Byte
  /-- `rdata` in a write and in idle (R168, R176). -/
  rdata     : Data
  /-- `lane_addr[k]` in idle (R176), and where `idx + k` does not fit the port (log entry 9). -/
  laneAddr  : Nat → BitVec (idxW + 1)
  /-- `lane_wdata[k]` in idle (R176). -/
  laneWdata : Nat → Byte
  /-- `lane_rdata[k]` of a lane that is not read-enabled (20_memory.md R41). -/
  laneRdata : Nat → Byte
  /-- `rdata` where the presented command is undefined (44_blocks.md R177). -/
  undefinedRdata : Data
  /-- All that is driven on lane `k`, the enables too, where the presented command is undefined
  (R177). -/
  undefinedLane  : Nat → Lane idxW

/-- The command decoder's signals (44_blocks.md R161). -/
structure Ctrl where
  isWrite : Bool
  isBits  : Bool
  n       : Nat
  opOk    : Bool
  active  : Bool
deriving DecidableEq, Repr

/-- The command decoder (44_blocks.md R161). -/
def commandDecoder (valid : Bool) (op : BitVec 4) : Ctrl :=
  let isBits := op.getLsbD 2
  let size := op.extractLsb' 0 2
  let opOk := !isBits || size == 0#2
  { isWrite := op.getLsbD 3
    isBits  := isBits
    n       := if isBits then 1 else 2 ^ size.toNat
    opOk    := opOk
    active  := valid && opOk }

/-- `bit_extract_mask` (44_blocks.md R162): `1 << w` is 9 bits wide. -/
def bitExtractMask {idxW : Nat} (f : Free idxW) (w : BitVec 4) : Byte :=
  if 1 ≤ w.toNat ∧ w.toNat ≤ 8 then ((1#9 <<< w.toNat) - 1#9).setWidth 8 else f.mask

/-- The outputs of `sub-byte_multiplexer` (44_blocks.md R164). -/
structure MuxOut where
  ext    : Byte
  merged : Byte
deriving DecidableEq, Repr

/-- `sub-byte_multiplexer` (44_blocks.md R164): extract and insert paths, each signal 8 bits wide. The
block has no input `w`: the width stands here only because it settles whether the outputs are
specified. -/
def subByteMultiplexer {idxW : Nat} (f : Free idxW) (w : BitVec 4) (old : Byte) (o : BitVec 3)
    (m vin : Byte) : MuxOut :=
  let select := m <<< o.toNat
  let insert := (vin &&& m) <<< o.toNat
  if legalPair o.toNat w.toNat then
    { ext    := (old >>> o.toNat) &&& m
      merged := (old &&& ~~~ select) ||| insert }
  else { ext := f.ext, merged := f.merged }

/-- `little_endian_reconstructor` (44_blocks.md R166): lane `k` supplies `value[8k+7:8k]`, a lane
`k >= n` is forced to zero. -/
def littleEndianReconstructor (laneRdata : Nat → Byte) (n : Nat) : Data :=
  (List.range laneCount).foldl
    (fun value k => value ||| ((if k < n then laneRdata k else 0x00#8).setWidth 64 <<< (8 * k))) 0#64

/-- The result multiplexer (44_blocks.md R168). -/
def resultMux {idxW : Nat} (f : Free idxW) (c : Ctrl) (ext : Byte) (value : Data) : Data :=
  if c.active && !c.isWrite then (if c.isBits then ext.setWidth 64 else value) else f.rdata

/-- `lane_re[k]` (44_blocks.md R172). -/
def laneRe (c : Ctrl) (k : Nat) : Bool := c.active && decide (k < c.n) && (!c.isWrite || c.isBits)

/-- `lane_we[k]` of `lane_write_composer` (44_blocks.md R170). -/
def laneWe (c : Ctrl) (k : Nat) : Bool := c.active && c.isWrite && decide (k < c.n)

/-- `lane_wdata[k]` of `lane_write_composer` (44_blocks.md R170). -/
def laneWdata (c : Ctrl) (merged : Byte) (wdata : Data) (k : Nat) : Byte :=
  if c.isBits && k == 0 then merged else wdata.extractLsb' (8 * k) 8

/-- `lane_addr[k] = zext(idx) + k` on the `IDX_W + 1` bits of the lane port (44_blocks.md R174). The
sum is a natural number that never wraps (20_memory.md R39): it fits for every `k` when `IDX_W` is 3
or more, and where it does not fit the port carries a free value (log entry 9). -/
def laneAddr {idxW : Nat} (f : Free idxW) (idx : BitVec idxW) (k : Nat) : BitVec (idxW + 1) :=
  if idx.toNat + k < 2 ^ (idxW + 1) then BitVec.ofNat (idxW + 1) (idx.toNat + k) else f.laneAddr k

/-- The verdict on a presented command with index `i` (30_encoding.md R67): `none` for a defined one,
else the refusal, in the order of 60_exceptions.md R193. It is no part of the hardware, which checks
nothing (60_exceptions.md R194): it says on which commands the blocks' formulas hold (44_blocks.md
R177). -/
def verdict (cfg : Cfg) (op bitW : BitVec 4) (bitOff : BitVec 3) (i : Nat) : Option Refusal :=
  let c := commandDecoder true op
  if c.opOk = false then some (.reservedOpcode op)
  else if c.isBits = true ∧ (bitW.toNat < 1 ∨ 8 < bitW.toNat) then some .badWidth
  else if c.isBits = true ∧ 8 < bitOff.toNat + bitW.toNat then some .fieldCrossesByte
  else if cfg.bufLen < i + c.n then some .outOfRange
  else none

/-- The verdict on the fields of a packed command, whose index is a 20-bit natural number whatever
`IDX_W` is (30_encoding.md R66). -/
def packedVerdict (cfg : Cfg) (x : Fields) : Option Refusal :=
  verdict cfg x.op x.bitW x.bitOff x.idx.toNat

/-- The verdict on what stands on the command port. -/
def portVerdict (cfg : Cfg) (p : CommandPorts cfg.idxW) : Option Refusal :=
  verdict cfg p.op p.bitW p.bitOff p.idx.toNat

/-- What the formulas of R160 to R176 drive in a step that is idle or presents a defined command: the
command port and the buffer as it stands before the step in, the driven ports out. The buffer
presents `buf[lane_addr[k]]` on a read-enabled lane and nothing known on another (20_memory.md
R41). -/
def drivenPorts {idxW : Nat} (f : Free idxW) (p : CommandPorts idxW) (buf : Memory) : Ports idxW :=
  let c := commandDecoder p.valid p.op
  let m := bitExtractMask f p.bitW
  let rd := fun k => if laneRe c k then buf.read (laneAddr f p.idx k).toNat else f.laneRdata k
  let value := littleEndianReconstructor rd c.n
  let mux := subByteMultiplexer f p.bitW (rd 0) p.bitOff m (p.wdata.setWidth 8)
  { rdata := resultMux f c mux.ext value
    lanes := (List.range laneCount).map (fun k =>
      { addr  := if p.valid then laneAddr f p.idx k else f.laneAddr k
        re    := laneRe c k
        we    := laneWe c k
        wdata := if p.valid then laneWdata c mux.merged p.wdata k else f.laneWdata k }) }

/-- The top level `bit_field_accessor` (44_blocks.md R160). Where the presented command is undefined,
every output, the lane enables too, is a free value (R177). `BUF_LEN` is no port: it settles only
which commands are defined. -/
def accessorPorts (cfg : Cfg) (f : Free cfg.idxW) (p : CommandPorts cfg.idxW) (buf : Memory) :
    Ports cfg.idxW :=
  if p.valid && (portVerdict cfg p).isSome then
    { rdata := f.undefinedRdata, lanes := (List.range laneCount).map f.undefinedLane }
  else drivenPorts f p buf

/-- The buffer at the end of a step: each write-enabled lane's byte is stored, every other byte keeps
its value (20_memory.md R41). -/
def commitLanes {idxW : Nat} (buf : Memory) (lanes : List (Lane idxW)) : Memory :=
  lanes.foldl (fun m l => if l.we then m.write l.addr.toNat l.wdata else m) buf

/-- The command port in idle, `cmd_valid = 0` (44_blocks.md R176). What stands on the other inputs
settles nothing, as `IdleEnablesNoLane` says of all their values. -/
def idlePorts (idxW : Nat) : CommandPorts idxW :=
  { onPorts (decodeFields 0#32) idxW 0#64 with valid := false }

/-- One step through the blocks and the lane port (44_blocks.md R160 to R176). The caller takes
`rdata` of a read (70_reset_and_hazards.md R223); of a write it takes nothing. -/
def blockStep (s : State) (f : Free s.cfg.idxW) : Result :=
  match s.pending with
  | [] =>
    .next { s with buf := commitLanes s.buf (accessorPorts s.cfg f (idlePorts s.cfg.idxW) s.buf).lanes }
  | cmd :: rest =>
    let x := decodeFields cmd.ctl
    match packedVerdict s.cfg x with
    | some r => .refused r
    | none =>
      let q := accessorPorts s.cfg f (onPorts x s.cfg.idxW cmd.wdata) s.buf
      .next { s with
        buf     := commitLanes s.buf q.lanes
        pending := rest
        results := if (commandDecoder true x.op).isWrite then s.results else s.results ++ [q.rdata] }

end Sys2Proof.Machine
end

