-- ==== Sys2Proof/Safety.lean ====
section
/-! DEFINITION. What a claim may call a safe run: the caller's side of the contract
(70_reset_and_hazards.md R222), the model's invariant, and a run with its observation (R224). -/

namespace Sys2Proof.Machine

/-- The preconditions of an operation (60_exceptions.md R191, U1 to U3), a matter of the operands
and the buffer's length alone. -/
def Defined (c : Cfg) : Instr → Prop
  | .getU8 i         => i < c.bufLen
  | .getU16 i        => i + 2 ≤ c.bufLen
  | .getU32 i        => i + 4 ≤ c.bufLen
  | .getU64 i        => i + 8 ≤ c.bufLen
  | .getBits i o w   => 1 ≤ w ∧ w ≤ 8 ∧ o + w ≤ 8 ∧ i < c.bufLen
  | .setU8 i _       => i < c.bufLen
  | .setU16 i _      => i + 2 ≤ c.bufLen
  | .setU32 i _      => i + 4 ≤ c.bufLen
  | .setU64 i _      => i + 8 ≤ c.bufLen
  | .setBits i o w _ => 1 ≤ w ∧ w ≤ 8 ∧ o + w ≤ 8 ∧ i < c.bufLen

/-- A command is defined when it decodes to an operation whose preconditions hold (30_encoding.md
R67). -/
def DefinedCommand (c : Cfg) (cmd : Command) : Prop :=
  ∃ i, decode cmd = .ok i ∧ Defined c i

/-- The model's invariant: a legal configuration (00_scope.md R5), the buffer in canonical form, and
no byte listed outside it (10_state.md R17). -/
def State.inv (s : State) : Bool :=
  s.cfg.legal && s.buf.wf && s.buf.below s.cfg.bufLen

/-- The widths `N` of a whole-byte field, 8, 16, 32 and 64 bits (00_scope.md R5). -/
inductive Width where
  | n8 | n16 | n32 | n64
deriving DecidableEq, Repr

/-- `N/8`. -/
def Width.bytes : Width → Nat
  | .n8  => 1
  | .n16 => 2
  | .n32 => 4
  | .n64 => 8

/-- `N`. -/
def Width.bits : Width → Nat
  | .n8  => 8
  | .n16 => 16
  | .n32 => 32
  | .n64 => 64

/-- The operation `get_uN` (30_encoding.md R72, 90_conflicts.md C5). -/
def Width.get : Width → Nat → Instr
  | .n8,  i => .getU8 i
  | .n16, i => .getU16 i
  | .n32, i => .getU32 i
  | .n64, i => .getU64 i

/-- The operation `set_uN` (30_encoding.md R72, 90_conflicts.md C5). -/
def Width.set : Width → Nat → Data → Instr
  | .n8,  i, v => .setU8 i v
  | .n16, i, v => .setU16 i v
  | .n32, i, v => .setU32 i v
  | .n64, i, v => .setU64 i v

/-- Operations performed one after another, stopping at the first that does not complete
(20_memory.md R45). -/
def execAll : List Instr → State → Result
  | [], s      => .next s
  | i :: is, s =>
    match exec i s with
    | .next t    => execAll is t
    | .fault r   => .fault r
    | .refused r => .refused r

/-- The bytes of the buffer, index 0 first. -/
def State.bytes (s : State) : List Byte := (List.range s.cfg.bufLen).map s.byteAt

/-- The observation of the run from `s` over all its pending commands: the final buffer and the read
results in order, or none if a step is refused (70_reset_and_hazards.md R224). -/
def observation (s : State) : Option (List Byte × List Data) :=
  match Sys2Proof.core.run s.pending.length s with
  | .next t    => some (State.bytes t, State.results t)
  | .fault _   => none
  | .refused _ => none

/-- Whether an outcome is a next state that passes a check. For tests. -/
def nextHas (r : Result) (p : State → Bool) : Bool :=
  match r with
  | .next t    => p t
  | .fault _   => false
  | .refused _ => false

/-- Whether an outcome is the given refusal. For tests. -/
def refusedWith (r : Result) (q : Refusal) : Bool :=
  match r with
  | .next _    => false
  | .fault _   => false
  | .refused p => decide (p = q)

end Sys2Proof.Machine
end

