-- ==== Sys2Proof/Certificates/Slice0/Obligations.lean ====
section
/-! DEFINITION. The statements for the provers. Each docstring names the rule or section it rests on.
Where the whole rule is one that the spec marks `[derived]` or `[decision]`, or is stated in part, the
docstring says so and the statement has basis 'derived'. `s.inv` is the model's invariant, which `StepKeepsTheInvariant` says
every step keeps and `ResetMeetsTheInvariant` says reset meets. -/

open Sys2Proof Sys2Proof.Machine

/-! ### Encoding -/

/-- Every well-formed operation is read back from its packed command, with every operand at every
value the fields admit (the operation-level form of 30_encoding.md R67, which marks it derived). -/
def Obligations.DecodeOfEncodeIsTheOperation : Prop :=
  ∀ i : Instr, i.wf = true → decode (encode i) = .ok i

/-- `decode(encode(c)) = c` on fields, and encoding the decoded fields of any control word gives the
word with its ignored bit 23 cleared (30_encoding.md R66 and R67, decision D19). -/
def Obligations.FieldSlicesRoundTrip : Prop :=
  (∀ f : Fields, decodeFields (encodeFields f) = f) ∧
  (∀ ctl : Ctl, encodeFields (decodeFields ctl) = ctl &&& 0xFF7FFFFF#32)

/-- Fields an operation does not use do not influence what a command decodes to: bit 23 never, bit
offset and bit width only in a bit-field operation (`op[2]`), the value only in a write (`op[3]`)
(30_encoding.md R65, decision D6, and R71, derived). -/
def Obligations.UnusedFieldsAreIgnored : Prop :=
  ∀ c d : Command,
    c.ctl.extractLsb' 28 4 = d.ctl.extractLsb' 28 4 →
    c.ctl.extractLsb' 0 20 = d.ctl.extractLsb' 0 20 →
    (c.ctl.getLsbD 30 = true → c.ctl.extractLsb' 24 4 = d.ctl.extractLsb' 24 4 ∧
      c.ctl.extractLsb' 20 3 = d.ctl.extractLsb' 20 3) →
    (c.ctl.getLsbD 31 = true → c.wdata = d.wdata) →
    decode c = decode d

/-- The six reserved `op` values, and no other, select no operation, and the step that presents one is
refused as U6 (30_encoding.md R70, decision D5). -/
def Obligations.ReservedOpcodesAreRefused : Prop :=
  (∀ c : Command,
    (∃ r, decode c = .error r) ↔
      c.ctl.extractLsb' 28 4 ∈ [0x5#4, 0x6#4, 0x7#4, 0xD#4, 0xE#4, 0xF#4]) ∧
  (∀ (s : State) (c : Command) (rest : List Command),
    s.pending = c :: rest →
    c.ctl.extractLsb' 28 4 ∈ [0x5#4, 0x6#4, 0x7#4, 0xD#4, 0xE#4, 0xF#4] →
    step s = .refused (.reservedOpcode (c.ctl.extractLsb' 28 4)))

/-- Control words written out by 30_encoding.md R66, R71 and the examples of the operation rules
decode to the operations they stand for. -/
def Obligations.WordsOfTheSpecDecode : Prop :=
  decode ⟨0x00000003#32, 0#64⟩ = .ok (.getU8 3) ∧
  decode ⟨0x10000005#32, 0#64⟩ = .ok (.getU16 5) ∧
  decode ⟨0x1F700005#32, 0#64⟩ = .ok (.getU16 5) ∧
  decode ⟨0x43200000#32, 0#64⟩ = .ok (.getBits 0 2 3) ∧
  decode ⟨0x80000003#32, 0x1A5#64⟩ = .ok (.setU8 3 0x1A5#64) ∧
  decode ⟨0xA0000000#32, 0x01020304#64⟩ = .ok (.setU32 0 0x01020304#64) ∧
  decode ⟨0xC3200000#32, 2#64⟩ = .ok (.setBits 0 2 3 2#64)

/-- The opcode bits of every packed operation say what it is: `op[3]` a write, `op[2]` a bit-field
operation, which has access size 1, and for a whole-byte field the access size is `2^op[1:0]`
(30_encoding.md R63, decision D4). -/
def Obligations.OpcodeBitsClassifyTheOperation : Prop :=
  ∀ i : Instr,
    (encode i).ctl.getLsbD 31 = isWrite i ∧
    ((encode i).ctl.getLsbD 30 = true ↔
      (∃ a o w, i = .getBits a o w) ∨ ∃ a o w v, i = .setBits a o w v) ∧
    accessBytes i =
      (if (encode i).ctl.getLsbD 30 then 1 else 2 ^ ((encode i).ctl.extractLsb' 28 2).toNat)

/-! ### Steps, the invariant, runs -/

/-- A step performs the presented command: where it decodes to `i`, the step is `exec i` with that
command taken from the caller's list (30_encoding.md R60; the list is the model's, log entry 3). -/
def Obligations.StepPerformsThePresentedCommand : Prop :=
  ∀ (s : State) (c : Command) (rest : List Command) (i : Instr),
    s.pending = c :: rest → decode c = .ok i →
    step s = exec i { s with pending := rest }

/-- With no command presented nothing happens (44_blocks.md R176 and 30_encoding.md R60; that such a
step exists in the model is its choice, log entry 4). -/
def Obligations.StepWithoutACommandChangesNothing : Prop :=
  ∀ s : State, s.pending = [] → step s = .next s

/-- Every step keeps the invariant: a legal configuration, the buffer in canonical form, no byte
outside it (00_scope.md R5, 10_state.md R17; the form of memory is the model's, log entry 2). -/
def Obligations.StepKeepsTheInvariant : Prop :=
  ∀ s t : State, s.inv = true → step s = .next t → t.inv = true

/-- Reset meets the invariant and has no command and no result (values of the model, log entries 1,
2, 3 and 5: the spec gives none, 10_state.md R21). -/
def Obligations.ResetMeetsTheInvariant : Prop :=
  State.reset.inv = true ∧ State.reset.pending = [] ∧ State.reset.results = []

/-- `BUF_LEN` and `IDX_W` never change (10_state.md R18), a step performs one command and no more
(30_encoding.md R60, 70_reset_and_hazards.md R224), and results already handed over stay (10_state.md
R15). That the commands stand in a list whose first one a step takes, and that a step with an empty
list exists, is the model's choice (log entries 3 and 4), as is the list of results (log entry 5). -/
def Obligations.StepKeepsConfigurationAndPastResults : Prop :=
  ∀ s t : State, step s = .next t →
    t.cfg = s.cfg ∧ t.pending = s.pending.tail ∧
      ∃ rs, t.results = s.results ++ rs ∧ rs.length ≤ 1

/-- A run of `m` defined commands takes `m` steps and hands over one result for each read
(70_reset_and_hazards.md R224 and R232, the second marked derived; 20_memory.md R44). -/
def Obligations.RunOfDefinedCommandsCompletes : Prop :=
  ∀ s : State, (∀ c ∈ s.pending, DefinedCommand s.cfg c) →
    ∃ t : State, Sys2Proof.core.run s.pending.length s = .next t ∧
      t.pending = [] ∧ t.cfg = s.cfg ∧
      ∃ rs, t.results = s.results ++ rs ∧
        rs.length = (s.pending.filter (fun c => !c.ctl.getLsbD 31)).length

/-- A run has an observation exactly when no step of it is refused, and that is settled by the
commands and the buffer's length alone (70_reset_and_hazards.md R224, decision D15; 60_exceptions.md
R192, decision D12). -/
def Obligations.ObservationExactlyWhenAllDefined : Prop :=
  ∀ s : State,
    (∃ o, observation s = some o) ↔ ∀ c ∈ s.pending, DefinedCommand s.cfg c

/-- A defined operation completes, an undefined one is refused as U1, U2 or U3; nothing faults
(60_exceptions.md R190, R191, R192). -/
def Obligations.ExecCompletesExactlyWhenDefined : Prop :=
  ∀ (i : Instr) (s : State),
    (Defined s.cfg i → ∃ t, exec i s = .next t) ∧
    (¬ Defined s.cfg i →
      ∃ r, exec i s = .refused r ∧ (r = .outOfRange ∨ r = .fieldCrossesByte ∨ r = .badWidth))

/-! ### Byte field operations -/

/-- `get_u8` returns the byte, zero-extended; nothing else changes; out of range it is refused as U1.
Any control word with `op = 0` is it, whatever its other fields (40_byte_field.md R90). -/
def Obligations.GetU8ReturnsTheByte : Prop :=
  (∀ c : Command, c.ctl.extractLsb' 28 4 = 0x0#4 →
    decode c = .ok (.getU8 (c.ctl.extractLsb' 0 20).toNat)) ∧
  (∀ (i : Nat) (v : Data), i < 2 ^ 20 →
    decode ⟨0x00000000#32 ||| BitVec.ofNat 32 i, v⟩ = .ok (.getU8 i)) ∧
  (∀ (i : Nat) (s : State), i < s.cfg.bufLen →
    exec (.getU8 i) s =
      .next { s with results := s.results ++ [(s.byteAt i).setWidth 64] }) ∧
  (∀ (i : Nat) (s : State), s.cfg.bufLen ≤ i → exec (.getU8 i) s = .refused .outOfRange)

/-- `set_u8` stores the low 8 bits of the value at its index and changes nothing else; out of range
it is refused as U1 (40_byte_field.md R91). -/
def Obligations.SetU8StoresTheLowByte : Prop :=
  (∀ c : Command, c.ctl.extractLsb' 28 4 = 0x8#4 →
    decode c = .ok (.setU8 (c.ctl.extractLsb' 0 20).toNat c.wdata)) ∧
  (∀ (i : Nat) (v : Data), i < 2 ^ 20 →
    decode ⟨0x80000000#32 ||| BitVec.ofNat 32 i, v⟩ = .ok (.setU8 i v)) ∧
  (∀ (i : Nat) (v : Data) (s : State), s.inv = true → i < s.cfg.bufLen →
    ∃ t : State, exec (.setU8 i v) s = .next t ∧
      t.cfg = s.cfg ∧ t.pending = s.pending ∧ t.results = s.results ∧
      t.byteAt i = v.extractLsb' 0 8 ∧
      ∀ a, a ≠ i → t.byteAt a = s.byteAt a) ∧
  (∀ (i : Nat) (v : Data) (s : State), s.cfg.bufLen ≤ i →
    exec (.setU8 i v) s = .refused .outOfRange)

/-! ### 16, 32 and 64-bit field operations -/

/-- `get_u16` returns `{buf[i+1], buf[i]}`, zero-extended (41_multibyte_fields.md R101). -/
def Obligations.GetU16JoinsTwoBytes : Prop :=
  (∀ c : Command, c.ctl.extractLsb' 28 4 = 0x1#4 →
    decode c = .ok (.getU16 (c.ctl.extractLsb' 0 20).toNat)) ∧
  (∀ (i : Nat) (v : Data), i < 2 ^ 20 →
    decode ⟨0x10000000#32 ||| BitVec.ofNat 32 i, v⟩ = .ok (.getU16 i)) ∧
  (∀ (i : Nat) (s : State), i + 2 ≤ s.cfg.bufLen →
    exec (.getU16 i) s =
      .next { s with results := s.results ++ [(s.byteAt (i + 1) ++ s.byteAt i).setWidth 64] }) ∧
  (∀ (i : Nat) (s : State), s.cfg.bufLen < i + 2 → exec (.getU16 i) s = .refused .outOfRange)

/-- `get_u32` returns `{buf[i+3], buf[i+2], buf[i+1], buf[i]}`, zero-extended
(41_multibyte_fields.md R102). -/
def Obligations.GetU32JoinsFourBytes : Prop :=
  (∀ c : Command, c.ctl.extractLsb' 28 4 = 0x2#4 →
    decode c = .ok (.getU32 (c.ctl.extractLsb' 0 20).toNat)) ∧
  (∀ (i : Nat) (v : Data), i < 2 ^ 20 →
    decode ⟨0x20000000#32 ||| BitVec.ofNat 32 i, v⟩ = .ok (.getU32 i)) ∧
  (∀ (i : Nat) (s : State), i + 4 ≤ s.cfg.bufLen →
    exec (.getU32 i) s =
      .next { s with results := s.results ++
        [(s.byteAt (i + 3) ++ s.byteAt (i + 2) ++ s.byteAt (i + 1) ++ s.byteAt i).setWidth 64] }) ∧
  (∀ (i : Nat) (s : State), s.cfg.bufLen < i + 4 → exec (.getU32 i) s = .refused .outOfRange)

/-- `get_u64` returns the eight bytes, `buf[i]` least significant (41_multibyte_fields.md R103). -/
def Obligations.GetU64JoinsEightBytes : Prop :=
  (∀ c : Command, c.ctl.extractLsb' 28 4 = 0x3#4 →
    decode c = .ok (.getU64 (c.ctl.extractLsb' 0 20).toNat)) ∧
  (∀ (i : Nat) (v : Data), i < 2 ^ 20 →
    decode ⟨0x30000000#32 ||| BitVec.ofNat 32 i, v⟩ = .ok (.getU64 i)) ∧
  (∀ (i : Nat) (s : State), i + 8 ≤ s.cfg.bufLen →
    exec (.getU64 i) s =
      .next { s with results := s.results ++
        [(s.byteAt (i + 7) ++ s.byteAt (i + 6) ++ s.byteAt (i + 5) ++ s.byteAt (i + 4) ++
          s.byteAt (i + 3) ++ s.byteAt (i + 2) ++ s.byteAt (i + 1) ++ s.byteAt i).setWidth 64] }) ∧
  (∀ (i : Nat) (s : State), s.cfg.bufLen < i + 8 → exec (.getU64 i) s = .refused .outOfRange)

/-- `set_u16` stores `v[7:0]`, `v[15:8]` and changes nothing else (41_multibyte_fields.md R105). -/
def Obligations.SetU16StoresTwoBytes : Prop :=
  (∀ c : Command, c.ctl.extractLsb' 28 4 = 0x9#4 →
    decode c = .ok (.setU16 (c.ctl.extractLsb' 0 20).toNat c.wdata)) ∧
  (∀ (i : Nat) (v : Data), i < 2 ^ 20 →
    decode ⟨0x90000000#32 ||| BitVec.ofNat 32 i, v⟩ = .ok (.setU16 i v)) ∧
  (∀ (i : Nat) (v : Data) (s : State), s.inv = true → i + 2 ≤ s.cfg.bufLen →
    ∃ t : State, exec (.setU16 i v) s = .next t ∧
      t.cfg = s.cfg ∧ t.pending = s.pending ∧ t.results = s.results ∧
      t.byteAt i = v.extractLsb' 0 8 ∧ t.byteAt (i + 1) = v.extractLsb' 8 8 ∧
      ∀ a, a < i ∨ i + 2 ≤ a → t.byteAt a = s.byteAt a) ∧
  (∀ (i : Nat) (v : Data) (s : State), s.cfg.bufLen < i + 2 →
    exec (.setU16 i v) s = .refused .outOfRange)

/-- `set_u32` stores `v[7:0]` to `v[31:24]` and changes nothing else (41_multibyte_fields.md R106). -/
def Obligations.SetU32StoresFourBytes : Prop :=
  (∀ c : Command, c.ctl.extractLsb' 28 4 = 0xA#4 →
    decode c = .ok (.setU32 (c.ctl.extractLsb' 0 20).toNat c.wdata)) ∧
  (∀ (i : Nat) (v : Data), i < 2 ^ 20 →
    decode ⟨0xA0000000#32 ||| BitVec.ofNat 32 i, v⟩ = .ok (.setU32 i v)) ∧
  (∀ (i : Nat) (v : Data) (s : State), s.inv = true → i + 4 ≤ s.cfg.bufLen →
    ∃ t : State, exec (.setU32 i v) s = .next t ∧
      t.cfg = s.cfg ∧ t.pending = s.pending ∧ t.results = s.results ∧
      t.byteAt i = v.extractLsb' 0 8 ∧ t.byteAt (i + 1) = v.extractLsb' 8 8 ∧
      t.byteAt (i + 2) = v.extractLsb' 16 8 ∧ t.byteAt (i + 3) = v.extractLsb' 24 8 ∧
      ∀ a, a < i ∨ i + 4 ≤ a → t.byteAt a = s.byteAt a) ∧
  (∀ (i : Nat) (v : Data) (s : State), s.cfg.bufLen < i + 4 →
    exec (.setU32 i v) s = .refused .outOfRange)

/-- `set_u64` stores the eight bytes of the value, `v[7:0]` at `buf[i]`, and changes nothing else
(41_multibyte_fields.md R107). -/
def Obligations.SetU64StoresEightBytes : Prop :=
  (∀ c : Command, c.ctl.extractLsb' 28 4 = 0xB#4 →
    decode c = .ok (.setU64 (c.ctl.extractLsb' 0 20).toNat c.wdata)) ∧
  (∀ (i : Nat) (v : Data), i < 2 ^ 20 →
    decode ⟨0xB0000000#32 ||| BitVec.ofNat 32 i, v⟩ = .ok (.setU64 i v)) ∧
  (∀ (i : Nat) (v : Data) (s : State), s.inv = true → i + 8 ≤ s.cfg.bufLen →
    ∃ t : State, exec (.setU64 i v) s = .next t ∧
      t.cfg = s.cfg ∧ t.pending = s.pending ∧ t.results = s.results ∧
      t.byteAt i = v.extractLsb' 0 8 ∧ t.byteAt (i + 1) = v.extractLsb' 8 8 ∧
      t.byteAt (i + 2) = v.extractLsb' 16 8 ∧ t.byteAt (i + 3) = v.extractLsb' 24 8 ∧
      t.byteAt (i + 4) = v.extractLsb' 32 8 ∧ t.byteAt (i + 5) = v.extractLsb' 40 8 ∧
      t.byteAt (i + 6) = v.extractLsb' 48 8 ∧ t.byteAt (i + 7) = v.extractLsb' 56 8 ∧
      ∀ a, a < i ∨ i + 8 ≤ a → t.byteAt a = s.byteAt a) ∧
  (∀ (i : Nat) (v : Data) (s : State), s.cfg.bufLen < i + 8 →
    exec (.setU64 i v) s = .refused .outOfRange)

/-- The read schema at every width: `result[8k+7:8k] = buf[i+k]`, which as a number is the sum of
`buf[i+k] * 2^(8k)`, as bits the OR of the shifted bytes, an unsigned `N`-bit value; nothing changes;
out of range it is refused as U1 (41_multibyte_fields.md R100, whose equal forms the spec marks
derived; width 8 by 90_conflicts.md C5). -/
def Obligations.ReadSchemaIsLittleEndian : Prop :=
  (∀ (N : Width) (i : Nat) (s : State), i + N.bytes ≤ s.cfg.bufLen →
    ∃ r : Data, exec (N.get i) s = .next { s with results := s.results ++ [r] } ∧
      (∀ k < N.bytes, r.extractLsb' (8 * k) 8 = s.byteAt (i + k)) ∧
      r.toNat = ((List.range N.bytes).map (fun k => (s.byteAt (i + k)).toNat * 2 ^ (8 * k))).sum ∧
      r = (List.range N.bytes).foldl
        (fun x k => x ||| ((s.byteAt (i + k)).setWidth 64 <<< (8 * k))) 0#64 ∧
      r.toNat < 2 ^ N.bits) ∧
  (∀ (N : Width) (i : Nat) (s : State), s.cfg.bufLen < i + N.bytes →
    exec (N.get i) s = .refused .outOfRange)

/-! ### Bit field operations -/

/-- `mask(w)` has bits `[w-1:0]` set and bits `[7:w]` clear, and is `2^w - 1`; at `w = 8` it is
`0xFF` (42_bit_fields.md R120). -/
def Obligations.MaskSetsTheLowBits : Prop :=
  ∀ w, 1 ≤ w → w ≤ 8 →
    (∀ j < 8, (mask w).getLsbD j = decide (j < w)) ∧ (mask w).toNat = 2 ^ w - 1

/-- The select pattern has exactly the bits `[o+w-1:o]` set, so the shift loses nothing, and there
are 36 legal pairs (42_bit_fields.md R123 and R122's count, which the spec marks derived). -/
def Obligations.SelectPatternCoversTheField : Prop :=
  (∀ o w, 1 ≤ w → o + w ≤ 8 →
    (sel o w).toNat = (2 ^ w - 1) * 2 ^ o ∧
    ∀ j < 8, (sel o w).getLsbD j = decide (o ≤ j ∧ j < o + w)) ∧
  ((List.range 8).map (fun o => ((List.range 16).filter (fun w => legalPair o w)).length)).sum = 36

/-- The constraints on both bit-field operations, in the order they are named: a width outside 1 to 8
is U3, then a field across the top of its byte is U2, then a byte outside the buffer is U1; where all
three hold the operation completes. The offset field never exceeds 7, and there are 36 legal pairs
(42_bit_fields.md R122, whose count the spec marks derived; 60_exceptions.md R193). -/
def Obligations.BitFieldConstraintsInOrder : Prop :=
  (∀ (i o w : Nat) (v : Data) (s : State),
    (w = 0 ∨ 8 < w →
      exec (.getBits i o w) s = .refused .badWidth ∧
      exec (.setBits i o w v) s = .refused .badWidth) ∧
    (1 ≤ w → w ≤ 8 → 8 < o + w →
      exec (.getBits i o w) s = .refused .fieldCrossesByte ∧
      exec (.setBits i o w v) s = .refused .fieldCrossesByte) ∧
    (1 ≤ w → o + w ≤ 8 → s.cfg.bufLen ≤ i →
      exec (.getBits i o w) s = .refused .outOfRange ∧
      exec (.setBits i o w v) s = .refused .outOfRange) ∧
    (1 ≤ w → o + w ≤ 8 → i < s.cfg.bufLen →
      (∃ t, exec (.getBits i o w) s = .next t) ∧ ∃ t, exec (.setBits i o w v) s = .next t)) ∧
  (∀ ctl : Ctl, (decodeFields ctl).bitOff.toNat ≤ 7 ∧ (decodeFields ctl).bitW.toNat ≤ 15) ∧
  ((List.range 8).map (fun o => ((List.range 16).filter
    (fun w => decide (1 ≤ w ∧ w ≤ 8 ∧ o + w ≤ 8))).length)).sum = 36

/-- `get_bits` returns `(buf[i] >> o) & mask(w)`, zero-extended, and changes nothing else
(42_bit_fields.md R124). -/
def Obligations.GetBitsReturnsTheField : Prop :=
  (∀ c : Command, c.ctl.extractLsb' 28 4 = 0x4#4 →
    decode c = .ok (.getBits (c.ctl.extractLsb' 0 20).toNat (c.ctl.extractLsb' 20 3).toNat
      (c.ctl.extractLsb' 24 4).toNat)) ∧
  (∀ (i o w : Nat) (v : Data), i < 2 ^ 20 → o < 8 → w < 16 →
    decode ⟨0x40000000#32 ||| (BitVec.ofNat 32 w <<< 24) ||| (BitVec.ofNat 32 o <<< 20) |||
      BitVec.ofNat 32 i, v⟩ = .ok (.getBits i o w)) ∧
  (∀ (i o w : Nat) (s : State), 1 ≤ w → o + w ≤ 8 → i < s.cfg.bufLen →
    exec (.getBits i o w) s =
      .next { s with results := s.results ++
        [((s.byteAt i >>> o) &&& BitVec.ofNat 8 (2 ^ w - 1)).setWidth 64] }) ∧
  (∀ (i o w : Nat) (s : State), w = 0 ∨ 8 < o + w ∨ s.cfg.bufLen ≤ i →
    ∃ r, exec (.getBits i o w) s = .refused r)

/-- `set_bits` stores `(buf[i] & ~(mask(w) << o)) | ((v & mask(w)) << o)`: the field becomes
`v[w-1:0]`, the byte's other bits and everything else stay (42_bit_fields.md R125). -/
def Obligations.SetBitsReplacesTheField : Prop :=
  (∀ c : Command, c.ctl.extractLsb' 28 4 = 0xC#4 →
    decode c = .ok (.setBits (c.ctl.extractLsb' 0 20).toNat (c.ctl.extractLsb' 20 3).toNat
      (c.ctl.extractLsb' 24 4).toNat c.wdata)) ∧
  (∀ (i o w : Nat) (v : Data), i < 2 ^ 20 → o < 8 → w < 16 →
    decode ⟨0xC0000000#32 ||| (BitVec.ofNat 32 w <<< 24) ||| (BitVec.ofNat 32 o <<< 20) |||
      BitVec.ofNat 32 i, v⟩ = .ok (.setBits i o w v)) ∧
  (∀ (i o w : Nat) (v : Data) (s : State), s.inv = true → 1 ≤ w → o + w ≤ 8 →
    i < s.cfg.bufLen →
    ∃ t : State, exec (.setBits i o w v) s = .next t ∧
      t.cfg = s.cfg ∧ t.pending = s.pending ∧ t.results = s.results ∧
      t.byteAt i = (s.byteAt i &&& ~~~ (BitVec.ofNat 8 (2 ^ w - 1) <<< o)) |||
        ((v.setWidth 8 &&& BitVec.ofNat 8 (2 ^ w - 1)) <<< o) ∧
      (∀ j < 8, (t.byteAt i).getLsbD j =
        if o ≤ j ∧ j < o + w then v.getLsbD (j - o) else (s.byteAt i).getLsbD j) ∧
      ∀ a, a ≠ i → t.byteAt a = s.byteAt a) ∧
  (∀ (i o w : Nat) (v : Data) (s : State), w = 0 ∨ 8 < o + w ∨ s.cfg.bufLen ≤ i →
    ∃ r, exec (.setBits i o w v) s = .refused r)

/-- A bit field of width 8 is the byte: `get_bits(i, 0, 8)` does what `get_u8(i)` does and
`set_bits(i, 0, 8, v)` what `set_u8(i, v)` does; at the lane port they differ where they are defined,
`set_bits` enabling the read of lane 0 (42_bit_fields.md R127, which the spec marks derived). -/
def Obligations.WidthEightIsTheWholeByte : Prop :=
  (∀ (i : Nat) (s : State), exec (.getBits i 0 8) s = exec (.getU8 i) s) ∧
  (∀ (i : Nat) (v : Data) (s : State), exec (.setBits i 0 8 v) s = exec (.setU8 i v) s) ∧
  (∀ (cfg : Cfg) (f : Free cfg.idxW) (i : Nat) (v : Data) (m : Memory),
    i < 2 ^ 20 → i < cfg.bufLen →
    ((accessorPorts cfg f (onPorts (Instr.setBits i 0 8 v).fields cfg.idxW v) m).lanes.map
      Lane.re)[0]? = some true ∧
    ((accessorPorts cfg f (onPorts (Instr.setU8 i v).fields cfg.idxW v) m).lanes.map
      Lane.re)[0]? = some false)

/-! ### What an operation may read and write -/

/-- A read changes nothing but the results handed over, by one value; a write hands over nothing and
changes only bytes of its field (10_state.md R19, 20_memory.md R37). -/
def Obligations.OperationsChangeOnlyTheirField : Prop :=
  ∀ (i : Instr) (s : State), s.inv = true → Defined s.cfg i →
    ∃ t : State, exec i s = .next t ∧ t.cfg = s.cfg ∧ t.pending = s.pending ∧
      (isWrite i = false → t.buf = s.buf ∧ ∃ r, t.results = s.results ++ [r]) ∧
      (isWrite i = true → t.results = s.results) ∧
      ∀ a, inField i a = false → t.byteAt a = s.byteAt a

/-- An operation depends on no byte but those it reads, and a whole-byte write on none: two buffers
that agree on the bytes read give the same verdict, the same result and the same stored bytes
(10_state.md R19, 20_memory.md R37). -/
def Obligations.OperationsDependOnlyOnBytesRead : Prop :=
  ∀ (i : Instr) (s t : State), s.inv = true → t.inv = true → s.cfg = t.cfg →
    (∀ a, readsBytes i = true → inField i a = true → s.byteAt a = t.byteAt a) →
    (∀ r, exec i s = .refused r ↔ exec i t = .refused r) ∧
    (∀ s', exec i s = .next s' →
      ∃ t' rs, exec i t = .next t' ∧
        s'.results = s.results ++ rs ∧ t'.results = t.results ++ rs ∧
        (isWrite i = true → ∀ a, inField i a = true → s'.byteAt a = t'.byteAt a))

/-- Nothing is kept from one operation to the next: what an operation does is the same whatever
results came before and whatever commands follow (10_state.md R10, R16). -/
def Obligations.OperationsDoNotDependOnHistory : Prop :=
  ∀ (i : Instr) (s t : State) (p : List Command) (rs : List Data), exec i s = .next t →
    ∃ new, t.results = s.results ++ new ∧
      exec i { s with pending := p, results := rs } =
        .next { t with pending := p, results := rs ++ new }

/-- Bits of the value above the field have no effect: values with the same low `N` bits (low `w` bits
for a bit field) are stored alike (30_encoding.md R64). -/
def Obligations.HighBitsOfTheValueAreIgnored : Prop :=
  (∀ (N : Width) (i : Nat) (u v : Data) (s : State), u.setWidth N.bits = v.setWidth N.bits →
    exec (N.set i u) s = exec (N.set i v) s) ∧
  (∀ (i o w : Nat) (u v : Data) (s : State), u.setWidth w = v.setWidth w →
    exec (.setBits i o w u) s = exec (.setBits i o w v) s)

/-- A byte reads as the latest earlier write to it left it: whatever operations ran since, none of
them a write whose field holds it, `get_u8` returns the value it had (20_memory.md R45, which the
spec marks derived). -/
def Obligations.ReadSeesTheLatestWrite : Prop :=
  ∀ (is : List Instr) (s t : State) (a : Nat), s.inv = true → a < s.cfg.bufLen →
    execAll is s = .next t →
    (∀ i ∈ is, isWrite i = true → inField i a = false) →
    exec (.getU8 a) t = .next { t with results := t.results ++ [(s.byteAt a).setWidth 64] }

/-- What accesses of other widths see of a 32-bit write (20_memory.md R35, the part the spec marks
derived). -/
def Obligations.OtherWidthsSeeTheBytesWritten : Prop :=
  ∀ (i : Nat) (v : Data) (s : State), s.inv = true → i + 4 ≤ s.cfg.bufLen →
    ∃ t : State, exec (.setU32 i v) s = .next t ∧
      (∀ k < 4, exec (.getU8 (i + k)) t =
        .next { t with results := t.results ++ [(v.extractLsb' (8 * k) 8).setWidth 64] }) ∧
      exec (.getU16 (i + 1)) t =
        .next { t with results := t.results ++ [(v.extractLsb' 8 16).setWidth 64] } ∧
      ∀ o w, 1 ≤ w → o + w ≤ 8 →
        exec (.getBits (i + 2) o w) t =
          .next { t with results := t.results ++ [(v.extractLsb' (16 + o) w).setWidth 64] }

/-! ### Guaranteed laws -/

/-- Round trip: `set_uN` then `get_uN` at the same index returns the value truncated to `N` bits
(43_guarantees.md R140). -/
def Obligations.WholeByteRoundTrip : Prop :=
  ∀ (N : Width) (i : Nat) (v : Data) (s : State), s.inv = true → i + N.bytes ≤ s.cfg.bufLen →
    ∃ t : State, exec (N.set i v) s = .next t ∧
      exec (N.get i) t =
        .next { t with results := t.results ++ [BitVec.ofNat 64 (v.toNat % 2 ^ N.bits)] }

/-- Byte independence: `set_uN` alters no byte outside `[i, i+N/8)` (43_guarantees.md R141). -/
def Obligations.ByteIndependence : Prop :=
  ∀ (N : Width) (i : Nat) (v : Data) (s : State), s.inv = true → i + N.bytes ≤ s.cfg.bufLen →
    ∃ t : State, exec (N.set i v) s = .next t ∧
      ∀ a, a < i ∨ i + N.bytes ≤ a → t.byteAt a = s.byteAt a

/-- Bit-field round trip: `set_bits` then `get_bits` at the same place returns `v & mask(w)`
(43_guarantees.md R142). -/
def Obligations.BitFieldRoundTrip : Prop :=
  ∀ (i o w : Nat) (v : Data) (s : State), s.inv = true → 1 ≤ w → o + w ≤ 8 →
    i < s.cfg.bufLen →
    ∃ t : State, exec (.setBits i o w v) s = .next t ∧
      exec (.getBits i o w) t =
        .next { t with results := t.results ++ [v &&& BitVec.ofNat 64 (2 ^ w - 1)] }

/-- Bit-field isolation: every bit of the byte outside `[o, o+w)` and every other byte is unchanged,
and a `get_bits` of a disjoint field returns the same before and after (43_guarantees.md R143, whose
last clause, with reads, the spec marks derived). -/
def Obligations.BitFieldIsolation : Prop :=
  ∀ (i o w : Nat) (v : Data) (s : State), s.inv = true → 1 ≤ w → o + w ≤ 8 →
    i < s.cfg.bufLen →
    ∃ t : State, exec (.setBits i o w v) s = .next t ∧
      (∀ j < 8, j < o ∨ o + w ≤ j → (t.byteAt i).getLsbD j = (s.byteAt i).getLsbD j) ∧
      (∀ a, a ≠ i → t.byteAt a = s.byteAt a) ∧
      ∀ o' w', 1 ≤ w' → o' + w' ≤ 8 → o' + w' ≤ o ∨ o + w ≤ o' →
        ∃ r, exec (.getBits i o' w') s = .next { s with results := s.results ++ [r] } ∧
          exec (.getBits i o' w') t = .next { t with results := t.results ++ [r] }

/-- Little-endian ordering: after `set_uN` byte `i+k` holds `v[8k+7:8k]` (43_guarantees.md R144). -/
def Obligations.LittleEndianOrdering : Prop :=
  ∀ (N : Width) (i : Nat) (v : Data) (s : State), s.inv = true → i + N.bytes ≤ s.cfg.bufLen →
    ∃ t : State, exec (N.set i v) s = .next t ∧
      ∀ k < N.bytes, t.byteAt (i + k) = v.extractLsb' (8 * k) 8

/-- Mask correctness: `get_bits` returns exactly `buf[i][o+w-1:o]`, so at most `2^w - 1`
(43_guarantees.md R145). -/
def Obligations.MaskCorrectness : Prop :=
  ∀ (i o w : Nat) (s : State), 1 ≤ w → o + w ≤ 8 → i < s.cfg.bufLen →
    ∃ r : Data, exec (.getBits i o w) s = .next { s with results := s.results ++ [r] } ∧
      r.toNat = ((s.byteAt i).extractLsb' o w).toNat ∧ r.toNat ≤ 2 ^ w - 1

/-- Reads are pure: a defined read leaves the buffer alone and, issued twice in a row, returns the
same value both times (43_guarantees.md R146, which the spec marks derived; 20_memory.md R40). -/
def Obligations.ReadsArePure : Prop :=
  ∀ (i : Instr) (s : State), isWrite i = false → Defined s.cfg i →
    ∃ r : Data, exec i s = .next { s with results := s.results ++ [r] } ∧
      execAll [i, i] s = .next { s with results := s.results ++ [r, r] }

/-- A wide read is a composition of byte reads, and of reads of half its width (43_guarantees.md
R147, which the spec marks derived). -/
def Obligations.WideReadsAreCompositions : Prop :=
  (∀ (N : Width) (i : Nat) (s : State), i + N.bytes ≤ s.cfg.bufLen →
    ∃ b : Nat → Data,
      (∀ k < N.bytes, exec (.getU8 (i + k)) s = .next { s with results := s.results ++ [b k] }) ∧
      exec (N.get i) s = .next { s with results := s.results ++
        [(List.range N.bytes).foldl (fun r k => r ||| (b k <<< (8 * k))) 0#64] }) ∧
  (∀ (i : Nat) (s : State), i + 4 ≤ s.cfg.bufLen →
    ∃ hi lo : Data, exec (.getU16 (i + 2)) s = .next { s with results := s.results ++ [hi] } ∧
      exec (.getU16 i) s = .next { s with results := s.results ++ [lo] } ∧
      exec (.getU32 i) s = .next { s with results := s.results ++ [(hi <<< 16) ||| lo] }) ∧
  (∀ (i : Nat) (s : State), i + 8 ≤ s.cfg.bufLen →
    ∃ hi lo : Data, exec (.getU32 (i + 4)) s = .next { s with results := s.results ++ [hi] } ∧
      exec (.getU32 i) s = .next { s with results := s.results ++ [lo] } ∧
      exec (.getU64 i) s = .next { s with results := s.results ++ [(hi <<< 32) ||| lo] })

/-- A wide write leaves the buffer that its byte writes leave, issued in any order (43_guarantees.md
R147, which the spec marks derived). -/
def Obligations.WideWritesAreByteWritesInAnyOrder : Prop :=
  ∀ (N : Width) (i : Nat) (v : Data) (s : State) (ks : List Nat), s.inv = true →
    i + N.bytes ≤ s.cfg.bufLen → ks.Perm (List.range N.bytes) →
    ∃ t : State, exec (N.set i v) s = .next t ∧
      execAll (ks.map (fun k => .setU8 (i + k) (v >>> (8 * k)))) s = .next t

/-- Bit-field accesses are compositions of byte accesses (43_guarantees.md R148, which the spec marks
derived). -/
def Obligations.BitFieldsAreCompositionsOfByteAccesses : Prop :=
  ∀ (i o w : Nat) (v : Data) (s : State), 1 ≤ w → o + w ≤ 8 → i < s.cfg.bufLen →
    ∃ b : Data, exec (.getU8 i) s = .next { s with results := s.results ++ [b] } ∧
      exec (.getBits i o w) s = .next { s with results := s.results ++
        [(b >>> o) &&& BitVec.ofNat 64 (2 ^ w - 1)] } ∧
      exec (.setBits i o w v) s =
        exec (.setU8 i ((b &&& ~~~ (BitVec.ofNat 64 (2 ^ w - 1) <<< o)) |||
          ((v &&& BitVec.ofNat 64 (2 ^ w - 1)) <<< o))) s

/-- The last writer wins: a write after one to the same field leaves what it leaves alone, and the
same write again changes nothing (43_guarantees.md R149, which the spec marks derived). -/
def Obligations.LastWriterWins : Prop :=
  (∀ (N : Width) (i : Nat) (u v : Data) (s : State), s.inv = true →
    i + N.bytes ≤ s.cfg.bufLen →
    ∃ t : State, exec (N.set i v) s = .next t ∧
      execAll [N.set i u, N.set i v] s = .next t ∧ exec (N.set i v) t = .next t) ∧
  (∀ (i o w : Nat) (u v : Data) (s : State), s.inv = true → 1 ≤ w → o + w ≤ 8 →
    i < s.cfg.bufLen →
    ∃ t : State, exec (.setBits i o w v) s = .next t ∧
      execAll [.setBits i o w u, .setBits i o w v] s = .next t ∧
      exec (.setBits i o w v) t = .next t)

/-- Disjoint writes commute: any two writes whose fields share no byte, and two `set_bits` to one byte
whose bit ranges are disjoint (43_guarantees.md R150, which the spec marks derived). -/
def Obligations.DisjointWritesCommute : Prop :=
  (∀ (i j : Instr) (s : State), s.inv = true → isWrite i = true → isWrite j = true →
    Defined s.cfg i → Defined s.cfg j → (∀ a, inField i a = true → inField j a = false) →
    ∃ t : State, execAll [i, j] s = .next t ∧ execAll [j, i] s = .next t) ∧
  (∀ (a o w o' w' : Nat) (u v : Data) (s : State), s.inv = true → a < s.cfg.bufLen →
    1 ≤ w → o + w ≤ 8 → 1 ≤ w' → o' + w' ≤ 8 → o + w ≤ o' ∨ o' + w' ≤ o →
    ∃ t : State, execAll [.setBits a o w u, .setBits a o' w' v] s = .next t ∧
      execAll [.setBits a o' w' v, .setBits a o w u] s = .next t)

/-- Packing a byte: bit fields that partition it, written in any order, leave the OR of the shifted
values, whatever the byte held (43_guarantees.md R151, which the spec marks derived). -/
def Obligations.BitFieldsPackAByte : Prop :=
  ∀ (i : Nat) (fs : List (Nat × Nat × Data)) (s : State), s.inv = true → i < s.cfg.bufLen →
    (∀ f ∈ fs, legalPair f.1 f.2.1 = true) →
    (∀ j < 8, (fs.filter (fun f => decide (f.1 ≤ j ∧ j < f.1 + f.2.1))).length = 1) →
    ∃ t : State, execAll (fs.map (fun f => .setBits i f.1 f.2.1 f.2.2)) s = .next t ∧
      t.byteAt i = fs.foldl
        (fun b f => b ||| ((f.2.2.setWidth 8 &&& BitVec.ofNat 8 (2 ^ f.2.1 - 1)) <<< f.1)) 0#8 ∧
      ∀ a, a ≠ i → t.byteAt a = s.byteAt a

/-! ### The blocks and the lane port -/

/-- The structural description agrees with the operation rules, whatever the unspecified port values
are, on every state whose configuration is legal (00_scope.md R5; every step keeps it so,
`StepKeepsTheInvariant`), which makes an index the port cannot carry one that is out of range
(44_blocks.md R178, which the spec marks derived; 30_encoding.md R66). -/
def Obligations.BlocksAgreeWithStep : Prop :=
  ∀ (s : State) (f : Free s.cfg.idxW), s.cfg.legal = true → blockStep s f = step s

/-- The lane enables and addresses of every DEFINED operation: lane `k` is read-enabled exactly for
`k < n` where the operation reads, write-enabled exactly for `k < n` where it writes, and carries
address `idx + k` where the lane is one of the `n`, and on every lane when `IDX_W` is 3 or more
(20_memory.md R42, which the spec marks derived; 44_blocks.md R170, R172, R174; log entry 9). For a
lane that is not enabled, that its address follows the formula of R174 is the model's choice (log
entry 8), since 93_implementation_defined.md U8 calls it open. -/
def Obligations.LanesOfEveryOperation : Prop :=
  ∀ (cfg : Cfg) (f : Free cfg.idxW) (i : Instr) (v : Data) (m : Memory), cfg.legal = true →
    i.wf = true → Defined cfg i →
    (accessorPorts cfg f (onPorts i.fields cfg.idxW v) m).lanes.map Lane.re =
      (List.range 8).map (fun k => decide (k < accessBytes i) && readsBytes i) ∧
    (accessorPorts cfg f (onPorts i.fields cfg.idxW v) m).lanes.map Lane.we =
      (List.range 8).map (fun k => decide (k < accessBytes i) && isWrite i) ∧
    ∀ k < 8, k < accessBytes i ∨ 3 ≤ cfg.idxW →
      ((accessorPorts cfg f (onPorts i.fields cfg.idxW v) m).lanes.map
        (fun l => l.addr.toNat))[k]? = some (index i + k)

/-- With `cmd_valid = 0` no lane is read- or write-enabled and the buffer keeps its contents
(44_blocks.md R176). -/
def Obligations.IdleEnablesNoLane : Prop :=
  ∀ (cfg : Cfg) (f : Free cfg.idxW) (p : CommandPorts cfg.idxW) (m : Memory), p.valid = false →
    (∀ l ∈ (accessorPorts cfg f p m).lanes, l.re = false ∧ l.we = false) ∧
    commitLanes m (accessorPorts cfg f p m).lanes = m

/-- Every enabled lane `k` of a defined command carries the address `idx + k`, a byte of the buffer:
on the `IDX_W + 1` bits of the lane port the sum never wraps (20_memory.md R39, decision D11, and
44_blocks.md R174; log entry 9). -/
def Obligations.EnabledLanesAddressTheBuffer : Prop :=
  ∀ (cfg : Cfg) (f : Free cfg.idxW) (p : CommandPorts cfg.idxW) (m : Memory), cfg.legal = true →
    p.valid = true → portVerdict cfg p = none →
    ∀ (k : Nat) (l : Lane cfg.idxW), (accessorPorts cfg f p m).lanes[k]? = some l →
      l.re = true ∨ l.we = true →
      l.addr.toNat = p.idx.toNat + k ∧ p.idx.toNat + k < cfg.bufLen ∧
        p.idx.toNat + k < 2 ^ (cfg.idxW + 1)

/-- A packed index either fits the `IDX_W` bits of the index port, which then carries it unchanged,
or is at least `2^IDX_W` and the command that presents it is undefined: no command that could run is
cut down to the port's width (30_encoding.md R66, decision D19; 10_state.md R20). -/
def Obligations.IndexPortCarriesEveryDefinedIndex : Prop :=
  ∀ (cfg : Cfg) (c : Command), cfg.legal = true →
    ((decodeFields c.ctl).idx.toNat < 2 ^ cfg.idxW →
      (onPorts (decodeFields c.ctl) cfg.idxW c.wdata).idx.toNat = (decodeFields c.ctl).idx.toNat) ∧
    (2 ^ cfg.idxW ≤ (decodeFields c.ctl).idx.toNat → ¬ DefinedCommand cfg c)

/-- `bit_extract_mask`: for `w` in 1 to 8 it is `mask(w)`, bit `j` set exactly for `j < w`; for another
`w` the output is the unspecified value, a free one (44_blocks.md R162). -/
def Obligations.BitExtractMaskBlock : Prop :=
  ∀ (idxW : Nat) (f : Free idxW) (w : BitVec 4),
    (1 ≤ w.toNat → w.toNat ≤ 8 →
      (∀ j < 8, (bitExtractMask f w).getLsbD j = decide (j < w.toNat)) ∧
      bitExtractMask f w = mask w.toNat) ∧
    (w.toNat = 0 ∨ 8 < w.toNat → bitExtractMask f w = f.mask)

/-- `sub-byte_multiplexer`: for a legal pair of offset and width, with the mask of that width, bit by
bit `merged[j]` is `ins[j]` where `sel[j]` is set and `old[j]` elsewhere, `ext` is `(old >> o) & m`,
and they are the new byte of `set_bits` and the result of `get_bits`; for another pair both outputs
are the unspecified values, free ones (44_blocks.md R164). -/
def Obligations.SubByteMultiplexerBlock : Prop :=
  (∀ (idxW : Nat) (f : Free idxW) (w : BitVec 4) (old vin : Byte) (o : BitVec 3),
    1 ≤ w.toNat → o.toNat + w.toNat ≤ 8 →
    (subByteMultiplexer f w old o (mask w.toNat) vin).ext = (old >>> o.toNat) &&& mask w.toNat ∧
    ∀ j < 8, (subByteMultiplexer f w old o (mask w.toNat) vin).merged.getLsbD j =
      if (mask w.toNat <<< o.toNat).getLsbD j then ((vin &&& mask w.toNat) <<< o.toNat).getLsbD j
      else old.getLsbD j) ∧
  (∀ (idxW : Nat) (f : Free idxW) (w : BitVec 4) (i : Nat) (o : BitVec 3) (v : Data) (s : State),
    s.inv = true →
    1 ≤ w.toNat → o.toNat + w.toNat ≤ 8 → i < s.cfg.bufLen →
    exec (.getBits i o.toNat w.toNat) s = .next { s with results := s.results ++
      [(subByteMultiplexer f w (s.byteAt i) o (mask w.toNat) (v.setWidth 8)).ext.setWidth 64] } ∧
    ∃ t : State, exec (.setBits i o.toNat w.toNat v) s = .next t ∧
      t.byteAt i = (subByteMultiplexer f w (s.byteAt i) o (mask w.toNat) (v.setWidth 8)).merged) ∧
  (∀ (idxW : Nat) (f : Free idxW) (w : BitVec 4) (old m vin : Byte) (o : BitVec 3),
    w.toNat = 0 ∨ 8 < o.toNat + w.toNat →
    subByteMultiplexer f w old o m vin = { ext := f.ext, merged := f.merged })

/-- `little_endian_reconstructor`: `value[8k+7:8k]` is lane `k`'s byte for `k < n` and zero above, so
it is independent of the lanes the operation does not read, and fed with the bytes from `i` on it is
the result of `get_u8`, `get_u16`, `get_u32` or `get_u64` (44_blocks.md R166). -/
def Obligations.LittleEndianReconstructorBlock : Prop :=
  (∀ (rd : Nat → Byte) (n k : Nat), k < 8 →
    (littleEndianReconstructor rd n).extractLsb' (8 * k) 8 = if k < n then rd k else 0#8) ∧
  (∀ (rd rd' : Nat → Byte) (n : Nat), (∀ k < n, rd k = rd' k) →
    littleEndianReconstructor rd n = littleEndianReconstructor rd' n) ∧
  (∀ (N : Width) (i : Nat) (s : State), i + N.bytes ≤ s.cfg.bufLen →
    exec (N.get i) s = .next { s with results := s.results ++
      [littleEndianReconstructor (fun k => s.byteAt (i + k)) N.bytes] })

/-- The command decoder's signals for every `op`: `is_write` is `op[3]`, `is_bits` is `op[2]`, `n` is
`1 << op[1:0]` or 1, `op_ok` exactly for the ten assigned values, `active` is `cmd_valid & op_ok`; a
presented command with `op_ok` 0 is refused as U6 (44_blocks.md R161). -/
def Obligations.CommandDecoderBlock : Prop :=
  (∀ (valid : Bool) (op : BitVec 4),
    (commandDecoder valid op).isWrite = op.getLsbD 3 ∧
    (commandDecoder valid op).isBits = op.getLsbD 2 ∧
    (commandDecoder valid op).n =
      (if op.getLsbD 2 then 1 else 1 <<< (op.extractLsb' 0 2).toNat) ∧
    ((commandDecoder valid op).opOk = true ↔
      op ∈ [0x0#4, 0x1#4, 0x2#4, 0x3#4, 0x4#4, 0x8#4, 0x9#4, 0xA#4, 0xB#4, 0xC#4]) ∧
    (commandDecoder valid op).active = (valid && (commandDecoder valid op).opOk)) ∧
  (∀ (s : State) (c : Command) (rest : List Command), s.pending = c :: rest →
    (commandDecoder true (decodeFields c.ctl).op).opOk = false →
    step s = .refused (.reservedOpcode (decodeFields c.ctl).op))

/-- Where the presented command is undefined, every output of the accessor, the lane enables too, can
be any value its port can carry, and a step that presents one is refused, so that nothing is said of
the buffer after it (44_blocks.md R177; 60_exceptions.md R192, decision D12;
93_implementation_defined.md U9). A packed index that is no value of the index port is out of range,
and of it the second clause speaks alone (30_encoding.md R66). -/
def Obligations.UndefinedCommandLeavesEveryOutputOpen : Prop :=
  (∀ (cfg : Cfg) (c : Command) (m : Memory) (q : Ports cfg.idxW),
    (decodeFields c.ctl).idx.toNat < 2 ^ cfg.idxW → ¬ DefinedCommand cfg c → q.lanes.length = 8 →
    ∃ f : Free cfg.idxW,
      accessorPorts cfg f (onPorts (decodeFields c.ctl) cfg.idxW c.wdata) m = q) ∧
  (∀ (s : State) (f : Free s.cfg.idxW) (c : Command) (rest : List Command), s.pending = c :: rest →
    ¬ DefinedCommand s.cfg c → ∃ r, step s = .refused r ∧ blockStep s f = .refused r)
end

