-- ==== Sys2Proof/Laws/Decode.lean ====
section
/-! SUPPORT. Everything decoding can answer, opcode by opcode. -/

namespace Sys2Proof

/-- What a set of fields selects: one of the ten operations by its opcode, or a reserved opcode
rejected by name (30_encoding.md R63, R70). -/
theorem toInstr_cases (f : Fields) (v : Data) :
    (f.op = 0x0#4 ∧ f.toInstr v = .ok (.getU8 f.idx.toNat)) ∨
    (f.op = 0x1#4 ∧ f.toInstr v = .ok (.getU16 f.idx.toNat)) ∨
    (f.op = 0x2#4 ∧ f.toInstr v = .ok (.getU32 f.idx.toNat)) ∨
    (f.op = 0x3#4 ∧ f.toInstr v = .ok (.getU64 f.idx.toNat)) ∨
    (f.op = 0x4#4 ∧
      f.toInstr v = .ok (.getBits f.idx.toNat f.bitOff.toNat f.bitW.toNat)) ∨
    (f.op = 0x8#4 ∧ f.toInstr v = .ok (.setU8 f.idx.toNat v)) ∨
    (f.op = 0x9#4 ∧ f.toInstr v = .ok (.setU16 f.idx.toNat v)) ∨
    (f.op = 0xA#4 ∧ f.toInstr v = .ok (.setU32 f.idx.toNat v)) ∨
    (f.op = 0xB#4 ∧ f.toInstr v = .ok (.setU64 f.idx.toNat v)) ∨
    (f.op = 0xC#4 ∧
      f.toInstr v = .ok (.setBits f.idx.toNat f.bitOff.toNat f.bitW.toNat v)) ∨
    (f.op ∈ [0x5#4, 0x6#4, 0x7#4, 0xD#4, 0xE#4, 0xF#4] ∧
      f.toInstr v = .error (.reservedOpcode f.op)) := by
  obtain ⟨⟨⟨op, h⟩⟩, bw, bo, ix⟩ := f
  have hop : op < 16 := h
  interval_cases op <;> simp [Fields.toInstr]

end Sys2Proof
end

