-- ==== Sys2Proof/Laws/Blocks.lean ====
section
/-! SUPPORT. What the top level of the blocks drives, on a defined command and on another. -/

namespace Sys2Proof.Machine

/-- The verdict settles definedness: no refusal exactly for a command that decodes to an operation
whose preconditions hold (30_encoding.md R67). -/
theorem packedVerdict_eq_none_iff (cfg : Cfg) (x : Fields) (v : Data) :
    packedVerdict cfg x = none ↔ ∃ i, x.toInstr v = .ok i ∧ Defined cfg i := by
  obtain ⟨op, bw, bo, ix⟩ := x
  have key : ∀ op : BitVec 4, op ∈ (List.range 16).map (BitVec.ofNat 4) := by decide
  have hop := key op
  simp only [List.range_succ, List.range_zero, List.nil_append, List.cons_append, List.map_cons,
    List.map_nil, List.mem_cons, List.not_mem_nil, or_false] at hop
  rcases hop with rfl | rfl | rfl | rfl | rfl | rfl | rfl | rfl | rfl | rfl | rfl | rfl | rfl | rfl |
    rfl | rfl <;>
    simp [packedVerdict, verdict, commandDecoder, Fields.toInstr, Defined] <;>
    split_ifs <;> simp only [true_iff, false_iff] <;> omega

/-- The index port carries an index that fits it unchanged. -/
theorem onPorts_idx_toNat {x : Fields} {idxW : Nat} (h : x.idx.toNat < 2 ^ idxW) (v : Data) :
    (onPorts x idxW v).idx.toNat = x.idx.toNat := by
  simp [onPorts, Nat.mod_eq_of_lt h]

/-- The two verdicts are one where the index fits the port. -/
theorem portVerdict_onPorts {cfg : Cfg} {x : Fields} (h : x.idx.toNat < 2 ^ cfg.idxW) (v : Data) :
    portVerdict cfg (onPorts x cfg.idxW v) = packedVerdict cfg x := by
  rw [portVerdict, onPorts_idx_toNat h]; rfl

/-- A defined command's bytes are in range. -/
theorem inRange_of_verdict {cfg : Cfg} {op bitW : BitVec 4} {bitOff : BitVec 3} {i : Nat}
    (h : verdict cfg op bitW bitOff i = none) : i + (commandDecoder true op).n ≤ cfg.bufLen := by
  simp only [verdict] at h
  split_ifs at h
  omega

/-- Every access size is at least one byte. -/
theorem commandDecoder_n_pos (op : BitVec 4) : 1 ≤ (commandDecoder true op).n := by
  revert op; decide

/-- In a legal configuration the index of a defined command fits the index port. -/
theorem idx_lt_of_packedVerdict {cfg : Cfg} {x : Fields} (hc : cfg.legal = true)
    (h : packedVerdict cfg x = none) : x.idx.toNat < 2 ^ cfg.idxW := by
  have hn := inRange_of_verdict h
  have hp := commandDecoder_n_pos x.op
  simp only [Cfg.legal, Bool.and_eq_true, decide_eq_true_eq] at hc
  omega

/-- A lane address is `idx + k` where that fits the port: nothing wraps (20_memory.md R39). -/
theorem laneAddr_toNat {idxW : Nat} {idx : BitVec idxW} {k : Nat}
    (h : idx.toNat + k < 2 ^ (idxW + 1)) (f : Free idxW) :
    (laneAddr f idx k).toNat = idx.toNat + k := by
  rw [laneAddr, if_pos h, BitVec.toNat_ofNat, Nat.mod_eq_of_lt h]

/-- A defined command: the ports carry what the blocks' formulas give. -/
theorem accessorPorts_of_defined {cfg : Cfg} {p : CommandPorts cfg.idxW}
    (h : portVerdict cfg p = none) (f : Free cfg.idxW) (m : Memory) :
    accessorPorts cfg f p m = drivenPorts f p m := by
  simp [accessorPorts, h]

/-- Idle: likewise, whatever the other inputs hold. -/
theorem accessorPorts_of_idle {cfg : Cfg} {p : CommandPorts cfg.idxW} (h : p.valid = false)
    (f : Free cfg.idxW) (m : Memory) : accessorPorts cfg f p m = drivenPorts f p m := by
  simp [accessorPorts, h]

/-- An undefined command: every output is a free value (44_blocks.md R177). -/
theorem accessorPorts_of_undefined {cfg : Cfg} {p : CommandPorts cfg.idxW} (hp : p.valid = true)
    (h : portVerdict cfg p ≠ none) (f : Free cfg.idxW) (m : Memory) :
    accessorPorts cfg f p m =
      { rdata := f.undefinedRdata, lanes := (List.range laneCount).map f.undefinedLane } := by
  simp [accessorPorts, hp, Option.isSome_iff_ne_none, h]

end Sys2Proof.Machine
end

