-- ==== Sys2Proof/Laws/State.lean ====
section
/-! SUPPORT. One lemma per field per update of State, so that no proof unfolds a record update. -/

namespace Sys2Proof.Machine

variable (s : State)

@[simp] theorem State.memWrite_cfg (i : Nat) (bs : List Byte) : (s.memWrite i bs).cfg = s.cfg := rfl
@[simp] theorem State.memWrite_buf (i : Nat) (bs : List Byte) :
    (s.memWrite i bs).buf = s.buf.writeAll i bs := rfl
@[simp] theorem State.memWrite_pending (i : Nat) (bs : List Byte) :
    (s.memWrite i bs).pending = s.pending := rfl
@[simp] theorem State.memWrite_results (i : Nat) (bs : List Byte) :
    (s.memWrite i bs).results = s.results := rfl

@[simp] theorem State.deliver_cfg (r : Data) : (s.deliver r).cfg = s.cfg := rfl
@[simp] theorem State.deliver_buf (r : Data) : (s.deliver r).buf = s.buf := rfl
@[simp] theorem State.deliver_pending (r : Data) : (s.deliver r).pending = s.pending := rfl
@[simp] theorem State.deliver_results (r : Data) : (s.deliver r).results = s.results ++ [r] := rfl
@[simp] theorem State.deliver_byteAt (r : Data) (a : Nat) : (s.deliver r).byteAt a = s.byteAt a := rfl

@[simp] theorem State.present_cfg (c : Command) : (s.present c).cfg = s.cfg := rfl
@[simp] theorem State.present_buf (c : Command) : (s.present c).buf = s.buf := rfl
@[simp] theorem State.present_pending (c : Command) : (s.present c).pending = c :: s.pending := rfl
@[simp] theorem State.present_results (c : Command) : (s.present c).results = s.results := rfl

@[simp] theorem State.start_cfg (c : Cfg) (b : Memory) (cs : List Command) :
    (State.start c b cs).cfg = c := rfl
@[simp] theorem State.start_buf (c : Cfg) (b : Memory) (cs : List Command) :
    (State.start c b cs).buf = b := rfl
@[simp] theorem State.start_pending (c : Cfg) (b : Memory) (cs : List Command) :
    (State.start c b cs).pending = cs := rfl
@[simp] theorem State.start_results (c : Cfg) (b : Memory) (cs : List Command) :
    (State.start c b cs).results = [] := rfl

/-- Two states with the same fields are the same. -/
theorem State.ext_fields {s t : State} (hc : s.cfg = t.cfg) (hb : s.buf = t.buf)
    (hp : s.pending = t.pending) (hr : s.results = t.results) : s = t := by
  cases s; cases t; simp_all

end Sys2Proof.Machine
end

