-- ==== Sys2Proof/Laws/Memory.lean ====
section
/-! SUPPORT. The buffer's laws: a read after a write, the canonical form kept by every memory
operation, and equal contents in canonical form being equal data. -/

namespace Sys2Proof.Machine

@[simp] theorem Memory.read_nil (a : Nat) : Memory.read [] a = fillByte := rfl

theorem Memory.read_cons (x : Nat) (y : Byte) (m : Memory) (a : Nat) :
    Memory.read ((x, y) :: m) a = if a = x then y else Memory.read m a := rfl

@[simp] theorem Memory.wf_nil : Memory.wf [] = true := rfl

theorem Memory.wf_cons (x : Nat) (y : Byte) (m : Memory) :
    Memory.wf ((x, y) :: m) = true ↔
      y ≠ fillByte ∧ (∀ c ∈ m, x < c.1) ∧ Memory.wf m = true := by
  simp [Memory.wf, and_assoc]

theorem Memory.below_iff (m : Memory) (len : Nat) :
    m.below len = true ↔ ∀ c ∈ m, c.1 < len := by
  simp [Memory.below]

/-- An index below every listed one reads as the fill byte. -/
theorem Memory.read_of_lt {m : Memory} {a : Nat} (h : ∀ c ∈ m, a < c.1) :
    m.read a = fillByte := by
  induction m with
  | nil => rfl
  | cons c m ih =>
    obtain ⟨x, y⟩ := c
    have hx : a < x := h (x, y) (by simp)
    rw [Memory.read_cons, if_neg (by omega)]
    exact ih fun d hd => h d (by simp [hd])

/-- A write lists no index but its own beside those listed before. -/
theorem Memory.mem_write {m : Memory} {a : Nat} {b : Byte} {c : Host.Cell}
    (h : c ∈ m.write a b) : c.1 = a ∨ c ∈ m := by
  induction m with
  | nil => simp only [Memory.write] at h; split at h <;> simp_all
  | cons d m ih =>
    obtain ⟨x, y⟩ := d
    simp only [Memory.write] at h
    split_ifs at h
    all_goals first
      | exact .inr h
      | (rcases List.mem_cons.1 h with rfl | h'
         · first | exact .inl rfl | exact .inr (by simp)
         · first
             | exact (ih h').imp_right (List.mem_cons_of_mem _)
             | exact .inr h'
             | exact .inr (List.mem_cons_of_mem _ h'))
      | exact .inr (List.mem_cons_of_mem _ h)

/-- A write keeps the canonical form. -/
theorem Memory.wf_write {m : Memory} (hm : m.wf = true) (a : Nat) (b : Byte) :
    (m.write a b).wf = true := by
  induction m with
  | nil => by_cases hb : b = fillByte <;> simp [Memory.write, hb, Memory.wf]
  | cons c m ih =>
    obtain ⟨x, y⟩ := c
    obtain ⟨hy, hlt, hm'⟩ := (Memory.wf_cons x y m).1 hm
    simp only [Memory.write]
    split_ifs with h1 h2 h3 h4
    · exact hm
    · refine (Memory.wf_cons _ _ _).2 ⟨h2, ?_, hm⟩
      intro d hd
      rcases List.mem_cons.1 hd with rfl | hd
      · exact h1
      · exact h1.trans (hlt d hd)
    · exact hm'
    · exact (Memory.wf_cons _ _ _).2 ⟨h4, by rw [h3]; exact hlt, hm'⟩
    · refine (Memory.wf_cons _ _ _).2 ⟨hy, ?_, ih hm'⟩
      intro d hd
      rcases Memory.mem_write hd with h | h
      · omega
      · exact hlt d h

/-- A write inside the buffer lists nothing outside it. -/
theorem Memory.below_write {m : Memory} {len : Nat} (hm : m.below len = true) {a : Nat}
    (ha : a < len) (b : Byte) : (m.write a b).below len = true := by
  rw [Memory.below_iff] at hm ⊢
  intro c hc
  rcases Memory.mem_write hc with h | h
  · omega
  · exact hm c h

/-- A read after a write: the byte written at its index, every other byte as before. -/
theorem Memory.read_write {m : Memory} (hm : m.wf = true) (a : Nat) (b : Byte) (c : Nat) :
    (m.write a b).read c = if c = a then b else m.read c := by
  induction m with
  | nil =>
    by_cases hb : b = fillByte <;> by_cases hc : c = a <;>
      simp [Memory.write, Memory.read, hb, hc]
  | cons d m ih =>
    obtain ⟨x, y⟩ := d
    obtain ⟨hy, hlt, hm'⟩ := (Memory.wf_cons x y m).1 hm
    have gap : a < x → ∀ c ≤ a, Memory.read ((x, y) :: m) c = fillByte := fun h c hc =>
      Memory.read_of_lt fun e he => by
        rcases List.mem_cons.1 he with rfl | he
        · exact hc.trans_lt h
        · exact hc.trans_lt (h.trans (hlt e he))
    rcases Nat.lt_trichotomy a x with h | h | h
    · by_cases hb : b = fillByte
      · rw [Memory.write, if_pos h, if_pos hb]
        split
        next hc => rw [gap h c hc.le, hb]
        next => rfl
      · rw [Memory.write, if_pos h, if_neg hb, Memory.read_cons]
    · subst h
      by_cases hb : b = fillByte
      · rw [Memory.write, if_neg (lt_irrefl a), if_pos rfl, if_pos hb, Memory.read_cons]
        split
        next hc => rw [hc, hb, Memory.read_of_lt hlt]
        next => rfl
      · rw [Memory.write, if_neg (lt_irrefl a), if_pos rfl, if_neg hb, Memory.read_cons,
          Memory.read_cons]
        split <;> rfl
    · rw [Memory.write, if_neg (by omega), if_neg (by omega), Memory.read_cons, Memory.read_cons,
        ih hm']
      by_cases hx : c = x
      · rw [if_pos hx, if_pos hx, if_neg (by omega)]
      · rw [if_neg hx, if_neg hx]

/-- Consecutive writes keep the canonical form. -/
theorem Memory.wf_writeAll {m : Memory} (hm : m.wf = true) (a : Nat) (bs : List Byte) :
    (m.writeAll a bs).wf = true := by
  induction bs generalizing m a with
  | nil => exact hm
  | cons b bs ih => exact ih (Memory.wf_write hm a b) (a + 1)

/-- Consecutive writes inside the buffer list nothing outside it. -/
theorem Memory.below_writeAll {m : Memory} {len : Nat} (hm : m.below len = true) {a : Nat}
    {bs : List Byte} (ha : a + bs.length ≤ len) : (m.writeAll a bs).below len = true := by
  induction bs generalizing m a with
  | nil => exact hm
  | cons b bs ih =>
    rw [List.length_cons] at ha
    exact ih (Memory.below_write hm (by omega) b) (by omega)

/-- A read after consecutive writes: the byte written at that index, or the byte as before. -/
theorem Memory.read_writeAll {m : Memory} (hm : m.wf = true) (a : Nat) (bs : List Byte) (c : Nat) :
    (m.writeAll a bs).read c =
      if h : a ≤ c ∧ c - a < bs.length then bs[c - a]'h.2 else m.read c := by
  induction bs generalizing m a with
  | nil => simp [Memory.writeAll]
  | cons b bs ih =>
    rw [Memory.writeAll, ih (Memory.wf_write hm a b) (a + 1), Memory.read_write hm]
    rcases Nat.lt_trichotomy c a with h | h | h
    · rw [dif_neg (by omega), if_neg (by omega), dif_neg (by omega)]
    · subst h
      simp
    · obtain ⟨k, rfl⟩ : ∃ k, c = a + 1 + k := ⟨c - (a + 1), by omega⟩
      have e1 : a + 1 + k - (a + 1) = k := by omega
      have e2 : a + 1 + k - a = k + 1 := by omega
      simp only [e1, e2, List.length_cons, List.getElem_cons_succ, Nat.add_lt_add_iff_right,
        if_neg (show ¬ a + 1 + k = a by omega), show a + 1 ≤ a + 1 + k by omega,
        show a ≤ a + 1 + k by omega, true_and]

/-- Outside the written bytes a read gives what it gave before. -/
theorem Memory.read_writeAll_outside {m : Memory} (hm : m.wf = true) {a : Nat} {bs : List Byte}
    {c : Nat} (h : c < a ∨ a + bs.length ≤ c) : (m.writeAll a bs).read c = m.read c := by
  rw [Memory.read_writeAll hm, dif_neg (by omega)]

/-- Memories in canonical form with the same contents are the same data. -/
theorem Memory.ext {m m' : Memory} (hm : m.wf = true) (hm' : m'.wf = true)
    (h : ∀ a, m.read a = m'.read a) : m = m' := by
  induction m generalizing m' with
  | nil =>
    cases m' with
    | nil => rfl
    | cons c m' =>
      obtain ⟨x, y⟩ := c
      have hx := h x
      rw [Memory.read_nil, Memory.read_cons, if_pos rfl] at hx
      exact absurd hx.symm ((Memory.wf_cons x y m').1 hm').1
  | cons c m ih =>
    obtain ⟨x, y⟩ := c
    obtain ⟨hy, hlt, hwf⟩ := (Memory.wf_cons x y m).1 hm
    cases m' with
    | nil =>
      have hx := h x
      rw [Memory.read_nil, Memory.read_cons, if_pos rfl] at hx
      exact absurd hx hy
    | cons c' m' =>
      obtain ⟨x', y'⟩ := c'
      obtain ⟨hy', hlt', hwf'⟩ := (Memory.wf_cons x' y' m').1 hm'
      have hxx : x = x' := by
        rcases Nat.lt_trichotomy x x' with hl | hl | hl
        · have hx := h x
          rw [Memory.read_cons, if_pos rfl, Memory.read_cons, if_neg (by omega),
            Memory.read_of_lt fun e he => hl.trans (hlt' e he)] at hx
          exact absurd hx hy
        · exact hl
        · have hx := h x'
          rw [Memory.read_cons, if_neg (by omega), Memory.read_cons, if_pos rfl,
            Memory.read_of_lt fun e he => hl.trans (hlt e he)] at hx
          exact absurd hx.symm hy'
      subst hxx
      have hyy : y = y' := by
        have hx := h x
        rwa [Memory.read_cons, if_pos rfl, Memory.read_cons, if_pos rfl] at hx
      subst hyy
      rw [ih hwf hwf' fun a => ?_]
      by_cases ha : a = x
      · rw [ha, Memory.read_of_lt hlt, Memory.read_of_lt hlt']
      · have hx := h a
        rwa [Memory.read_cons, if_neg ha, Memory.read_cons, if_neg ha] at hx

/-- A buffer laid down from its bytes is in canonical form. -/
theorem Memory.wf_ofBytes (bs : List Byte) : (Memory.ofBytes bs).wf = true :=
  Memory.wf_writeAll Memory.wf_nil 0 bs

/-- A buffer laid down from its bytes reads as them, so every byte buffer is a buffer of the model. -/
theorem Memory.read_ofBytes (bs : List Byte) (a : Nat) :
    (Memory.ofBytes bs).read a = if h : a < bs.length then bs[a] else fillByte := by
  rw [Memory.ofBytes, Memory.read_writeAll Memory.wf_nil]
  simp

end Sys2Proof.Machine
end

