-- ==== Sys2Proof/Laws/Ops.lean ====
section
/-! SUPPORT. One lemma per shared operation that says everything it can do, and the inversion lemmas
of `exec` and `step`, which later proofs cite instead of unfolding. -/

namespace Sys2Proof.Machine

theorem whenDefined_eq_next {p : Option Refusal} {t u : State} :
    whenDefined p t = .next u ↔ p = none ∧ u = t := by
  cases p <;> simp [whenDefined, eq_comm]

theorem whenDefined_eq_refused {p : Option Refusal} {t : State} {r : Refusal} :
    whenDefined p t = .refused r ↔ p = some r := by
  cases p <;> simp [whenDefined]

theorem whenDefined_none (t : State) : whenDefined none t = .next t := rfl

theorem rangePre_eq_none {c : Cfg} {i n : Nat} : rangePre c i n = none ↔ i + n ≤ c.bufLen := by
  simp [rangePre, inRange]

theorem rangePre_of_le {c : Cfg} {i n : Nat} (h : i + n ≤ c.bufLen) : rangePre c i n = none :=
  rangePre_eq_none.2 h

theorem rangePre_of_lt {c : Cfg} {i n : Nat} (h : c.bufLen < i + n) :
    rangePre c i n = some .outOfRange := by
  simp [rangePre, inRange, h]

theorem bitPre_eq_none {c : Cfg} {i o w : Nat} :
    bitPre c i o w = none ↔ 1 ≤ w ∧ w ≤ 8 ∧ o + w ≤ 8 ∧ i < c.bufLen := by
  by_cases h1 : 1 ≤ w ∧ w ≤ 8
  · by_cases h2 : o + w ≤ 8
    · rw [bitPre, if_neg (not_not.2 h1), if_neg (not_not.2 h2), rangePre_eq_none]
      omega
    · rw [bitPre, if_neg (not_not.2 h1), if_pos h2]
      simp; omega
  · rw [bitPre, if_pos h1]
    simp; omega

/-- The read schema completes exactly where the field is in the buffer, and hands over the bytes
joined little-endian. -/
theorem readField_eq_next {n i : Nat} {s t : State} :
    readField n i s = .next t ↔
      i + n ≤ s.cfg.bufLen ∧ t = s.deliver (joinBytes (s.memRead i n)) := by
  rw [readField, whenDefined_eq_next, rangePre_eq_none]

/-- The write schema completes exactly where the field is in the buffer, and stores the low bytes of
the value. -/
theorem writeField_eq_next {n i : Nat} {v : Data} {s t : State} :
    writeField n i v s = .next t ↔
      i + n ≤ s.cfg.bufLen ∧ t = s.memWrite i (laneBytes n v) := by
  rw [writeField, whenDefined_eq_next, rangePre_eq_none]

theorem execGetBits_eq_next {i o w : Nat} {s t : State} :
    execGetBits i o w s = .next t ↔
      (1 ≤ w ∧ w ≤ 8 ∧ o + w ≤ 8 ∧ i < s.cfg.bufLen) ∧
        t = s.deliver ((extractBits (s.byteAt i) o w).setWidth 64) := by
  rw [execGetBits, whenDefined_eq_next, bitPre_eq_none]

theorem execSetBits_eq_next {i o w : Nat} {v : Data} {s t : State} :
    execSetBits i o w v s = .next t ↔
      (1 ≤ w ∧ w ≤ 8 ∧ o + w ≤ 8 ∧ i < s.cfg.bufLen) ∧
        t = s.memWrite i [insertBits (s.byteAt i) o w v] := by
  rw [execSetBits, whenDefined_eq_next, bitPre_eq_none]

@[simp] theorem length_laneBytes (n : Nat) (v : Data) : (laneBytes n v).length = n := by
  simp [laneBytes]

@[simp] theorem getElem_laneBytes (n : Nat) (v : Data) (k : Nat) (h : k < (laneBytes n v).length) :
    (laneBytes n v)[k] = byteSlice v k := by
  simp [laneBytes]

@[simp] theorem length_memRead (s : State) (i n : Nat) : (s.memRead i n).length = n := by
  simp [State.memRead]

@[simp] theorem getElem_memRead (s : State) (i n k : Nat) (h : k < (s.memRead i n).length) :
    (s.memRead i n)[k] = s.byteAt (i + k) := by
  simp [State.memRead]

/-- The bytes of an operation's field are the `accessBytes` ones from its index on. -/
theorem inField_iff (i : Instr) (a : Nat) :
    inField i a = true ↔ index i ≤ a ∧ a < index i + accessBytes i := by
  simp only [inField, Bool.and_eq_true, decide_eq_true_eq]

/-- What a byte reads as after bytes are stored. -/
theorem byteAt_memWrite {s : State} (hs : s.buf.wf = true) (i : Nat) (bs : List Byte) (a : Nat) :
    (s.memWrite i bs).byteAt a =
      if h : i ≤ a ∧ a - i < bs.length then bs[a - i]'h.2 else s.byteAt a :=
  Memory.read_writeAll hs i bs a

/-- Outside the stored bytes a byte reads as before. -/
theorem byteAt_memWrite_outside {s : State} (hs : s.buf.wf = true) {i : Nat} {bs : List Byte}
    {a : Nat} (h : a < i ∨ i + bs.length ≤ a) : (s.memWrite i bs).byteAt a = s.byteAt a :=
  Memory.read_writeAll_outside hs h

/-- Inside the stored bytes a byte reads as the one stored there. -/
theorem byteAt_memWrite_inside {s : State} (hs : s.buf.wf = true) {i : Nat} {bs : List Byte}
    {k : Nat} (h : k < bs.length) : (s.memWrite i bs).byteAt (i + k) = bs[k] := by
  rw [byteAt_memWrite hs, dif_pos (by omega)]
  simp

/-- Bit by bit, joined bytes: bit `j` is bit `j % 8` of byte `j / 8`. -/
theorem getLsbD_joinBytes (bs : List Byte) (j : Nat) :
    (joinBytes bs).getLsbD j = (decide (j < 64) && (bs[j / 8]?.getD 0#8).getLsbD (j % 8)) := by
  induction bs generalizing j with
  | nil => simp [joinBytes]
  | cons b bs ih =>
    rw [joinBytes, BitVec.getLsbD_or, BitVec.getLsbD_shiftLeft, BitVec.getLsbD_setWidth, ih]
    by_cases hj : j < 8
    · simp [hj, show j / 8 = 0 by omega, show j % 8 = j by omega, show j < 64 by omega]
    · obtain ⟨k, rfl⟩ : ∃ k, j = k + 8 := ⟨j - 8, by omega⟩
      rw [show (k + 8) / 8 = k / 8 + 1 by omega, show (k + 8) % 8 = k % 8 by omega]
      by_cases hk : k + 8 < 64
      · simp [hk, show k < 64 by omega]
      · simp [hk]

/-- Bit `j` of the mask of width `w` is set exactly for `j < w`. -/
theorem getLsbD_mask {w : Nat} (hw : w ≤ 8) (j : Nat) :
    (mask w).getLsbD j = decide (j < w) := by
  by_cases hj : j < 8
  · interval_cases w <;> interval_cases j <;> rfl
  · rw [BitVec.getLsbD_of_ge _ _ (by omega)]
    simp; omega

/-- Bit `j` of the select pattern is set exactly for `o <= j < o + w` within the byte. -/
theorem getLsbD_sel {o w : Nat} (hw : w ≤ 8) (j : Nat) :
    (sel o w).getLsbD j = (decide (j < 8) && decide (o ≤ j) && decide (j < o + w)) := by
  rw [sel, BitVec.getLsbD_shiftLeft, getLsbD_mask hw, Bool.eq_iff_iff]
  simp only [Bool.and_eq_true, decide_eq_true_eq, Bool.not_eq_true', decide_eq_false_iff_not]
  omega

/-- What `get_bits` returns, bit by bit (42_bit_fields.md R126). -/
theorem getLsbD_extractBits {o w : Nat} (hw : w ≤ 8) (b : Byte) (m : Nat) :
    (extractBits b o w).getLsbD m = (decide (m < w) && b.getLsbD (o + m)) := by
  rw [extractBits, BitVec.getLsbD_and, BitVec.getLsbD_ushiftRight, getLsbD_mask hw, Bool.and_comm]

/-- The inserted bits lie inside the field and are those of the value (42_bit_fields.md R126). -/
theorem getLsbD_ins {o w : Nat} (hw : w ≤ 8) (v : Data) (j : Nat) :
    (ins o w v).getLsbD j =
      (decide (j < 8) && decide (o ≤ j) && decide (j < o + w) && v.getLsbD (j - o)) := by
  rw [ins, BitVec.getLsbD_setWidth, BitVec.getLsbD_shiftLeft, BitVec.getLsbD_and,
    BitVec.getLsbD_setWidth, getLsbD_mask hw, Bool.eq_iff_iff]
  simp only [Bool.and_eq_true, decide_eq_true_eq, Bool.not_eq_true', decide_eq_false_iff_not]
  constructor
  · rintro ⟨h1, ⟨h2, h3⟩, h4, h5, h6⟩
    exact ⟨⟨⟨h1, by omega⟩, by omega⟩, h4⟩
  · rintro ⟨⟨⟨h1, h2⟩, h3⟩, h4⟩
    exact ⟨h1, ⟨by omega, by omega⟩, h4, by omega, by omega⟩

/-- What `set_bits` makes of a byte, bit by bit (42_bit_fields.md R126). -/
theorem getLsbD_insertBits {o w : Nat} (hw : w ≤ 8) (old : Byte) (v : Data) {j : Nat} (hj : j < 8) :
    (insertBits old o w v).getLsbD j =
      if o ≤ j ∧ j < o + w then v.getLsbD (j - o) else old.getLsbD j := by
  rw [insertBits, BitVec.getLsbD_or, BitVec.getLsbD_and, BitVec.getLsbD_not, getLsbD_sel hw,
    getLsbD_ins hw]
  by_cases h1 : o ≤ j <;> by_cases h2 : j < o + w <;> simp [h1, h2, hj]

/-- The invariant, field by field. -/
theorem inv_iff (s : State) :
    s.inv = true ↔
      s.cfg.legal = true ∧ s.buf.wf = true ∧ s.buf.below s.cfg.bufLen = true := by
  simp [State.inv, and_assoc]

/-- Storing bytes inside the buffer keeps the invariant. -/
theorem inv_memWrite {s : State} (h : s.inv = true) {i : Nat} {bs : List Byte}
    (hb : i + bs.length ≤ s.cfg.bufLen) : (s.memWrite i bs).inv = true := by
  rw [inv_iff] at h ⊢
  exact ⟨h.1, Memory.wf_writeAll h.2.1 i bs, Memory.below_writeAll h.2.2 hb⟩

/-- Reset's buffer is in canonical form. -/
theorem reset_buf_wf : State.reset.buf.wf = true := rfl

/-- Everything a completed operation can have done: it was defined, and it either handed over one
result and changed nothing else, or stored as many bytes as its access size and changed nothing
else. -/
theorem exec_cases {i : Instr} {s t : State} (h : exec i s = .next t) :
    Defined s.cfg i ∧
      ((isWrite i = false ∧ ∃ r, t = s.deliver r) ∨
        (isWrite i = true ∧
          ∃ bs : List Byte, bs.length = accessBytes i ∧ t = s.memWrite (index i) bs)) := by
  cases i with
  | getU8 i => exact ⟨(readField_eq_next.1 h).1, .inl ⟨rfl, _, (readField_eq_next.1 h).2⟩⟩
  | getU16 i => exact ⟨(readField_eq_next.1 h).1, .inl ⟨rfl, _, (readField_eq_next.1 h).2⟩⟩
  | getU32 i => exact ⟨(readField_eq_next.1 h).1, .inl ⟨rfl, _, (readField_eq_next.1 h).2⟩⟩
  | getU64 i => exact ⟨(readField_eq_next.1 h).1, .inl ⟨rfl, _, (readField_eq_next.1 h).2⟩⟩
  | getBits i o w =>
    exact ⟨(execGetBits_eq_next.1 h).1, .inl ⟨rfl, _, (execGetBits_eq_next.1 h).2⟩⟩
  | setU8 i v =>
    exact ⟨(writeField_eq_next.1 h).1,
      .inr ⟨rfl, _, length_laneBytes 1 v, (writeField_eq_next.1 h).2⟩⟩
  | setU16 i v =>
    exact ⟨(writeField_eq_next.1 h).1,
      .inr ⟨rfl, _, length_laneBytes 2 v, (writeField_eq_next.1 h).2⟩⟩
  | setU32 i v =>
    exact ⟨(writeField_eq_next.1 h).1,
      .inr ⟨rfl, _, length_laneBytes 4 v, (writeField_eq_next.1 h).2⟩⟩
  | setU64 i v =>
    exact ⟨(writeField_eq_next.1 h).1,
      .inr ⟨rfl, _, length_laneBytes 8 v, (writeField_eq_next.1 h).2⟩⟩
  | setBits i o w v =>
    exact ⟨(execSetBits_eq_next.1 h).1, .inr ⟨rfl, _, rfl, (execSetBits_eq_next.1 h).2⟩⟩

/-- The bytes of a defined operation's field lie in the buffer. -/
theorem Defined.field_le {c : Cfg} {i : Instr} (h : Defined c i) :
    index i + accessBytes i ≤ c.bufLen := by
  cases i <;> simp only [Defined] at h <;> simp only [index, accessBytes] <;> omega

/-- Everything a completed step can have done: nothing, with no command presented, or the decoded
operation of the presented command. -/
theorem step_cases {s t : State} (h : step s = .next t) :
    (s.pending = [] ∧ t = s) ∨
      ∃ c rest i, s.pending = c :: rest ∧ decode c = .ok i ∧
        exec i { s with pending := rest } = .next t := by
  unfold step nextCommand at h
  cases hp : s.pending with
  | nil =>
    rw [hp] at h
    exact .inl ⟨rfl, by simpa [idle, eq_comm] using h⟩
  | cons c rest =>
    rw [hp] at h
    refine .inr ⟨c, rest, ?_⟩
    cases hd : decode c with
    | ok i => exact ⟨i, rfl, rfl, by simpa [hd] using h⟩
    | error r => cases r; simp [hd, refuseReject] at h

theorem coreRun_of_next (M : Host.Core) (n : Nat) (s t : M.State) (h : M.step s = .next t) :
    M.run (n + 1) s = M.run n t := by
  simp [Host.Core.run, h]

theorem coreRun_of_refused (M : Host.Core) (n : Nat) (s : M.State) (r : M.Refusal)
    (h : M.step s = .refused r) : M.run (n + 1) s = .refused r := by
  simp [Host.Core.run, h]

/-- A run goes on from the state its first step leaves. -/
theorem run_of_step_next {s t : State} (n : Nat) (h : step s = .next t) :
    Sys2Proof.core.run (n + 1) s = Sys2Proof.core.run n t :=
  coreRun_of_next Sys2Proof.core n s t h

/-- A run ends at a refused step. -/
theorem run_of_step_refused {s : State} {r : Refusal} (n : Nat) (h : step s = .refused r) :
    Sys2Proof.core.run (n + 1) s = .refused r :=
  coreRun_of_refused Sys2Proof.core n s r h

end Sys2Proof.Machine
end

