-- ==== Sys2Proof/Laws/PerInstr.lean ====
section
/-! SUPPORT. The families of LAWS.json: a fact about every operation as syntax, one lemma per
constructor. -/

namespace Sys2Proof.Laws.CanonicalOpcode

/-- The canonical fields of an operation carry its opcode (30_encoding.md R63, R67). -/
def Statement (i : Instr) : Prop := i.fields.op = i.opcode

theorem getU8 (i : Nat) : Statement (.getU8 i) := rfl
theorem getU16 (i : Nat) : Statement (.getU16 i) := rfl
theorem getU32 (i : Nat) : Statement (.getU32 i) := rfl
theorem getU64 (i : Nat) : Statement (.getU64 i) := rfl
theorem getBits (i o w : Nat) : Statement (.getBits i o w) := rfl
theorem setU8 (i : Nat) (v : Data) : Statement (.setU8 i v) := rfl
theorem setU16 (i : Nat) (v : Data) : Statement (.setU16 i v) := rfl
theorem setU32 (i : Nat) (v : Data) : Statement (.setU32 i v) := rfl
theorem setU64 (i : Nat) (v : Data) : Statement (.setU64 i v) := rfl
theorem setBits (i o w : Nat) (v : Data) : Statement (.setBits i o w v) := rfl

end Sys2Proof.Laws.CanonicalOpcode
end

