-- ==== Sys2Proof/Tests/Slice0.lean ====
section
/-! SUPPORT. The model's own tests. Expected values come from the spec: the words and vectors of
95_test_vectors.md and the examples of the rules named. The last part gives, for every statement with
hypotheses, a state and operands that meet them together. -/

namespace Sys2Proof.Tests

open Sys2Proof Sys2Proof.Machine

/-- The start buffer of 95_test_vectors.md section 2: `buf[a] = 0x10 + a`, BUF_LEN = 16. -/
def demo : State :=
  State.start { idxW := 16, bufLen := 16 }
    (Memory.ofBytes [0x10#8, 0x11#8, 0x12#8, 0x13#8, 0x14#8, 0x15#8, 0x16#8, 0x17#8,
      0x18#8, 0x19#8, 0x1A#8, 0x1B#8, 0x1C#8, 0x1D#8, 0x1E#8, 0x1F#8]) []

/-- `demo` with one byte replaced. -/
def demoWith (a : Nat) (b : Byte) : State := demo.memWrite a [b]

/-- One value for every port value the spec leaves free. -/
def free0 : Free demo.cfg.idxW :=
  { mask := 0x5A#8, ext := 0x5A#8, merged := 0x5A#8, rdata := 0x5A#64,
    laneAddr := fun _ => 99#17, laneWdata := fun _ => 0x5A#8, laneRdata := fun _ => 0x5A#8,
    undefinedRdata := 0x5A#64,
    undefinedLane := fun _ => { addr := 99#17, re := true, we := true, wdata := 0x5A#8 } }

/-- The outcome is a next state with exactly these results. -/
def gives (r : Result) (rs : List Data) : Bool := nextHas r (fun t => decide (t.results = rs))

/-- The outcome is a next state that holds these bytes from an index on and handed over nothing. -/
def holds (r : Result) (a : Nat) (bs : List Byte) : Bool :=
  nextHas r (fun t => decide (t.memRead a bs.length = bs) && decide (t.results = []))

/-! ### Well-formedness refuses each ill-formed operand -/

theorem test_wf_refuses_wide_index : (Instr.getU8 (2 ^ 20)).wf = false := by decide
theorem test_wf_refuses_wide_offset : (Instr.getBits 0 8 1).wf = false := by decide
theorem test_wf_refuses_wide_width : (Instr.setBits 0 0 16 0#64).wf = false := by decide
theorem test_wf_refuses_wide_index_in_write : (Instr.setU64 (2 ^ 20) 0#64).wf = false := by decide
theorem test_wf_accepts_the_top : (Instr.setBits (2 ^ 20 - 1) 7 15 0#64).wf = true := by decide

/-! ### Every constructor's word, written out from 30_encoding.md R66: op, bit_w, bit 23, bit_off,
idx -/

theorem test_decode_getU8 :
    decode ⟨0b00000000000000000000000000000011#32, 0#64⟩ = .ok (.getU8 3) := by decide
theorem test_decode_getU16 :
    decode ⟨0b00010000000000000000000000000101#32, 0#64⟩ = .ok (.getU16 5) := by decide
theorem test_decode_getU32 :
    decode ⟨0b00100000000000000000000000001100#32, 0#64⟩ = .ok (.getU32 12) := by decide
theorem test_decode_getU64 :
    decode ⟨0b00110000000000000000000000001000#32, 0#64⟩ = .ok (.getU64 8) := by decide
theorem test_decode_getBits :
    decode ⟨0b01000011001000000000000000000000#32, 0#64⟩ = .ok (.getBits 0 2 3) := by decide
theorem test_decode_setU8 :
    decode ⟨0b10000000000000000000000000000011#32, 0x1A5#64⟩ = .ok (.setU8 3 0x1A5#64) := by decide
theorem test_decode_setU16 :
    decode ⟨0b10010000000000000000000000000100#32, 0x1234#64⟩ = .ok (.setU16 4 0x1234#64) := by
  decide
theorem test_decode_setU32 :
    decode ⟨0b10100000000000000000000000000001#32, 0xDEADBEEF#64⟩ =
      .ok (.setU32 1 0xDEADBEEF#64) := by decide
theorem test_decode_setU64 :
    decode ⟨0b10110000000000000000000000000011#32, 0x0102030405060708#64⟩ =
      .ok (.setU64 3 0x0102030405060708#64) := by decide
theorem test_decode_setBits :
    decode ⟨0b11000001011100000000000000001111#32, 1#64⟩ = .ok (.setBits 15 7 1 1#64) := by decide

/-- 95_test_vectors.md 2.6: bit 23 set in a bit-field command is ignored. -/
theorem test_decode_ignores_bit_23 :
    decode ⟨0x43A00000#32, 0#64⟩ = .ok (.getBits 0 2 3) := by decide
/-- 95_test_vectors.md 2.6: a reserved opcode. -/
theorem test_decode_rejects_reserved :
    decode ⟨0xD0000000#32, 0#64⟩ = .error (.reservedOpcode 0xD#4) := by decide
/-- 30_encoding.md R66: the packed word of `get_bits(buf, 0, 2, 3)`. -/
theorem test_encode_getBits : encode (.getBits 0 2 3) = ⟨0x43200000#32, 0#64⟩ := by decide
/-- 95_test_vectors.md 2.5: the packed command of `set_bits(buf, 15, 4, 4, 1)`. -/
theorem test_encode_setBits : encode (.setBits 15 4 4 1#64) = ⟨0xC440000F#32, 1#64⟩ := by decide
/-- A table word: `ctl` in bits 31..0, `wdata` above. -/
theorem test_table_word :
    decodeTableWord 96 (0xA0000000 + 2 ^ 32 * 0x01020304) = some (.setU32 0 0x01020304#64) := by
  decide
/-- Bits at or above `nbits` are zero. -/
theorem test_table_word_short :
    decodeTableWord 32 (0xA0000000 + 2 ^ 32 * 0x01020304) = some (.setU32 0 0#64) := by decide

/-! ### Operations, on the vectors of 95_test_vectors.md -/

theorem test_getU8_last_index : gives (exec (.getU8 15) demo) [0x1F#64] = true := by decide
theorem test_getU8_no_sign_extension :
    gives (exec (.getU8 5) (demoWith 5 0xFF#8)) [0xFF#64] = true := by decide
theorem test_getU16_odd_index : gives (exec (.getU16 5) demo) [0x1615#64] = true := by decide
theorem test_getU16_second_byte_outside :
    refusedWith (exec (.getU16 15) demo) .outOfRange = true := by decide
theorem test_getU32_unaligned : gives (exec (.getU32 3) demo) [0x16151413#64] = true := by decide
theorem test_getU32_no_sign_extension :
    gives (exec (.getU32 4) (demo.memWrite 4 [0#8, 0#8, 0#8, 0x80#8])) [0x80000000#64] = true := by
  decide
theorem test_getU64_unaligned :
    gives (exec (.getU64 5) demo) [0x1C1B1A1918171615#64] = true := by decide
theorem test_getU64_too_high : refusedWith (exec (.getU64 9) demo) .outOfRange = true := by decide
theorem test_setU8_truncates :
    holds (exec (.setU8 3 0x1A5#64) demo) 2 [0x12#8, 0xA5#8, 0x14#8] = true := by decide
theorem test_setU8_zero : holds (exec (.setU8 15 0#64) demo) 14 [0x1E#8, 0#8] = true := by decide
theorem test_setU16_truncates :
    holds (exec (.setU16 4 0x12345#64) demo) 3 [0x13#8, 0x45#8, 0x23#8, 0x16#8] = true := by decide
theorem test_setU32_unaligned :
    holds (exec (.setU32 1 0xDEADBEEF#64) demo) 0
      [0x10#8, 0xEF#8, 0xBE#8, 0xAD#8, 0xDE#8, 0x15#8] = true := by decide
theorem test_setU32_too_high :
    refusedWith (exec (.setU32 13 0x11223344#64) demo) .outOfRange = true := by decide
theorem test_setU64_last_index :
    holds (exec (.setU64 8 0xFFEEDDCCBBAA9988#64) demo) 7
      [0x17#8, 0x88#8, 0x99#8, 0xAA#8, 0xBB#8, 0xCC#8, 0xDD#8, 0xEE#8, 0xFF#8] = true := by decide
theorem test_getBits_example :
    gives (exec (.getBits 0 2 3) (demoWith 0 0xB4#8)) [5#64] = true := by decide
theorem test_getBits_bad_width_named_first :
    refusedWith (exec (.getBits 16 7 0) demo) .badWidth = true := by decide
theorem test_setBits_wider_value :
    holds (exec (.setBits 0 4 2 7#64) (demoWith 0 0x00#8)) 0 [0x30#8] = true := by decide
theorem test_setBits_keeps_other_bits :
    holds (exec (.setBits 0 5 3 2#64) (demoWith 0 0xA5#8)) 0 [0x45#8, 0x11#8] = true := by decide
/-- 42_bit_fields.md R120: the width at which an 8-bit intermediate would fail. -/
theorem test_mask_eight : mask 8 = 0xFF#8 := by decide
/-- 95_test_vectors.md 2.6: an index beyond any 16-bit one is out of range. -/
theorem test_index_beyond_idx_w :
    refusedWith (step (demo.present ⟨0x00010000#32, 0#64⟩)) .outOfRange = true := by decide

/-! ### Steps and the blocks -/

/-- The very next step after reset runs the table word. -/
theorem test_step_runs_table_word :
    holds (step (State.reset.withFetchWord 96 (0x80000003 + 2 ^ 32 * 0x1A5))) 3 [0xA5#8] = true := by
  decide
/-- 95_test_vectors.md 2.6: a reserved opcode is refused as U6. -/
theorem test_step_refuses_reserved :
    refusedWith (step (demo.present ⟨0x70000000#32, 0#64⟩)) (.reservedOpcode 0x7#4) = true := by
  decide
/-- 95_test_vectors.md 2.7: `set_bits(buf, 5, 2, 3, 7)` enables lane 0 both ways and stores 0x1D. -/
theorem test_lanes_setBits :
    (accessorPorts demo.cfg free0 (onPorts (decodeFields 0xC3200005#32) demo.cfg.idxW 7#64) demo.buf).lanes[0]? =
      some { addr := 5#17, re := true, we := true, wdata := 0x1D#8 } := by decide
/-- 95_test_vectors.md 2.7: `get_u32(buf, 5)` through the lanes. -/
theorem test_blocks_getU32 :
    (accessorPorts demo.cfg free0 (onPorts (decodeFields 0x20000005#32) demo.cfg.idxW 0#64) demo.buf).rdata =
      0x18171615#64 := by decide
/-- R177: on an undefined command, here U2, the lanes carry the free values, not the formulas'. -/
theorem test_lanes_of_an_undefined_command :
    (accessorPorts demo.cfg free0 (onPorts (decodeFields 0x42700000#32) demo.cfg.idxW 0#64) demo.buf).lanes[0]? =
      some { addr := 99#17, re := true, we := true, wdata := 0x5A#8 } := by decide
/-- 20_memory.md R39: with `IDX_W = 16` lane 7 of index 0xFFFF carries 0x10006, not a wrapped 6. -/
theorem test_lane_address_does_not_wrap :
    (laneAddr free0 0xFFFF#16 7).toNat = 0x10006 := by decide
/-- The structural step stores what 95_test_vectors.md 2.7 says of `set_u16(buf, 5, 0xBEEF)`. -/
theorem test_blockStep_setU16 :
    holds (blockStep (demo.present ⟨0x90000005#32, 0xBEEF#64⟩) free0) 4
      [0x14#8, 0xEF#8, 0xBE#8, 0x17#8] = true := by decide

/-! ### Witnesses: the hypotheses of each statement, met together -/

theorem witness_DecodeOfEncodeIsTheOperation :
    (Instr.getU64 (2 ^ 20 - 1)).wf = true ∧ (Instr.setBits (2 ^ 20 - 1) 7 15 1#64).wf = true := by
  decide

/-- A whole-byte read, a bit-field read and a whole-byte write, each with other ignored fields. -/
theorem witness_UnusedFieldsAreIgnored :
    let meets := fun c d : Command =>
      c ≠ d ∧ c.ctl.extractLsb' 28 4 = d.ctl.extractLsb' 28 4 ∧
      c.ctl.extractLsb' 0 20 = d.ctl.extractLsb' 0 20 ∧
      (c.ctl.getLsbD 30 = true → c.ctl.extractLsb' 24 4 = d.ctl.extractLsb' 24 4 ∧
        c.ctl.extractLsb' 20 3 = d.ctl.extractLsb' 20 3) ∧
      (c.ctl.getLsbD 31 = true → c.wdata = d.wdata)
    meets ⟨0x10000005#32, 0#64⟩ ⟨0x1F700005#32, 9#64⟩ ∧
    meets ⟨0x43200000#32, 0#64⟩ ⟨0x43A00000#32, 9#64⟩ ∧
    meets ⟨0x80000003#32, 7#64⟩ ⟨0x8FF00003#32, 7#64⟩ := by
  decide

theorem witness_ReservedOpcodesAreRefused :
    (demo.present ⟨0xF0000000#32, 0#64⟩).pending = ⟨0xF0000000#32, 0#64⟩ :: [] ∧
    (0xF0000000#32 : Ctl).extractLsb' 28 4 ∈ [0x5#4, 0x6#4, 0x7#4, 0xD#4, 0xE#4, 0xF#4] := by
  decide

theorem witness_StepPerformsThePresentedCommand :
    (demo.present ⟨0x43200000#32, 0#64⟩).pending = ⟨0x43200000#32, 0#64⟩ :: [] ∧
    decode ⟨0x43200000#32, 0#64⟩ = .ok (.getBits 0 2 3) := by
  decide

theorem witness_StepWithoutACommandChangesNothing : demo.pending = [] := rfl

theorem witness_StepKeepsTheInvariant :
    (demo.present ⟨0x80000003#32, 0#64⟩).inv = true ∧
    ∃ t, step (demo.present ⟨0x80000003#32, 0#64⟩) = .next t :=
  ⟨by decide, _, rfl⟩

theorem witness_StepKeepsConfigurationAndPastResults :
    ∃ t, step (demo.present ⟨0x00000003#32, 0#64⟩) = .next t ∧ t.results.length = 1 :=
  ⟨_, rfl, rfl⟩

/-- A command in range and, for the other direction, one out of it. -/
theorem witness_RunOfDefinedCommandsCompletes :
    (∀ c ∈ (demo.present ⟨0x0000000F#32, 0#64⟩).pending, DefinedCommand demo.cfg c) ∧
    ¬ DefinedCommand demo.cfg ⟨0x00000010#32, 0#64⟩ := by
  constructor
  · intro c hc
    obtain rfl : c = ⟨0x0000000F#32, 0#64⟩ := by
      simpa [State.present, demo, State.start] using hc
    exact ⟨.getU8 15, by decide, by show 15 < 16; decide⟩
  · rintro ⟨i, hi, hd⟩
    obtain rfl : Instr.getU8 16 = i := by
      have h : decode ⟨0x00000010#32, 0#64⟩ = .ok (.getU8 16) := by decide
      exact Except.ok.inj (h.symm.trans hi)
    exact absurd hd (by show ¬ 16 < 16; decide)

theorem witness_ObservationExactlyWhenAllDefined :
    (∃ o, observation (demo.present ⟨0x0000000F#32, 0#64⟩) = some o) ∧
    observation (demo.present ⟨0x00000010#32, 0#64⟩) = none :=
  ⟨⟨_, rfl⟩, rfl⟩

theorem witness_ExecCompletesExactlyWhenDefined :
    Defined demo.cfg (.getU64 8) ∧ ¬ Defined demo.cfg (.getU64 9) ∧
    Defined demo.cfg (.setBits 15 0 8 0#64) ∧ ¬ Defined demo.cfg (.setBits 15 1 8 0#64) := by
  refine ⟨?_, ?_, ?_, ?_⟩ <;> simp [Defined, demo, State.start]

/-- The bounds of the one-byte operations' clauses. -/
theorem witness_GetU8ReturnsTheByte :
    (0x0FFFFFFF#32 : Ctl).extractLsb' 28 4 = 0x0#4 ∧ 2 ^ 20 - 1 < 2 ^ 20 ∧
    15 < demo.cfg.bufLen ∧ demo.cfg.bufLen ≤ 16 := by
  decide

theorem witness_SetU8StoresTheLowByte :
    (0x8FFFFFFF#32 : Ctl).extractLsb' 28 4 = 0x8#4 ∧ 2 ^ 20 - 1 < 2 ^ 20 ∧
    demo.inv = true ∧ 15 < demo.cfg.bufLen ∧ demo.cfg.bufLen ≤ 16 := by
  decide

theorem witness_GetU16JoinsTwoBytes :
    (0x1FFFFFFF#32 : Ctl).extractLsb' 28 4 = 0x1#4 ∧ 2 ^ 20 - 1 < 2 ^ 20 ∧
    14 + 2 ≤ demo.cfg.bufLen ∧ demo.cfg.bufLen < 15 + 2 := by
  decide

theorem witness_GetU32JoinsFourBytes :
    (0x2FFFFFFF#32 : Ctl).extractLsb' 28 4 = 0x2#4 ∧ 2 ^ 20 - 1 < 2 ^ 20 ∧
    12 + 4 ≤ demo.cfg.bufLen ∧ demo.cfg.bufLen < 13 + 4 := by
  decide

theorem witness_GetU64JoinsEightBytes :
    (0x3FFFFFFF#32 : Ctl).extractLsb' 28 4 = 0x3#4 ∧ 2 ^ 20 - 1 < 2 ^ 20 ∧
    8 + 8 ≤ demo.cfg.bufLen ∧ demo.cfg.bufLen < 9 + 8 := by
  decide

theorem witness_SetU16StoresTwoBytes :
    (0x9FFFFFFF#32 : Ctl).extractLsb' 28 4 = 0x9#4 ∧ 2 ^ 20 - 1 < 2 ^ 20 ∧
    demo.inv = true ∧ 14 + 2 ≤ demo.cfg.bufLen ∧ demo.cfg.bufLen < 15 + 2 := by
  decide

theorem witness_SetU32StoresFourBytes :
    (0xAFFFFFFF#32 : Ctl).extractLsb' 28 4 = 0xA#4 ∧ 2 ^ 20 - 1 < 2 ^ 20 ∧
    demo.inv = true ∧ 12 + 4 ≤ demo.cfg.bufLen ∧ demo.cfg.bufLen < 13 + 4 := by
  decide

theorem witness_SetU64StoresEightBytes :
    (0xBFFFFFFF#32 : Ctl).extractLsb' 28 4 = 0xB#4 ∧ 2 ^ 20 - 1 < 2 ^ 20 ∧
    demo.inv = true ∧ 8 + 8 ≤ demo.cfg.bufLen ∧ demo.cfg.bufLen < 9 + 8 := by
  decide

theorem witness_ReadSchemaIsLittleEndian :
    demo.cfg.bufLen < 16 + Width.n8.bytes ∧ demo.cfg.bufLen < 9 + Width.n64.bytes ∧
    15 + Width.n8.bytes ≤ demo.cfg.bufLen ∧ 14 + Width.n16.bytes ≤ demo.cfg.bufLen ∧
    12 + Width.n32.bytes ≤ demo.cfg.bufLen ∧ 8 + Width.n64.bytes ≤ demo.cfg.bufLen := by
  decide

theorem witness_MaskSetsTheLowBits : (1 ≤ 1 ∧ 1 ≤ 8) ∧ (1 ≤ 8 ∧ 8 ≤ 8) := by decide

theorem witness_SelectPatternCoversTheField : (1 ≤ 8 ∧ 0 + 8 ≤ 8) ∧ (1 ≤ 1 ∧ 7 + 1 ≤ 8) := by decide

/-- Each clause at its bounds: widths 0 and 9; width 8 at offset 1 and width 1 at offset 8; width 8 at
offset 0, outside and inside the buffer. -/
theorem witness_BitFieldConstraintsInOrder :
    (0 = 0 ∨ 8 < 0) ∧ (9 = 0 ∨ 8 < 9) ∧
    (1 ≤ 8 ∧ 8 ≤ 8 ∧ 8 < 1 + 8) ∧ (1 ≤ 1 ∧ 1 ≤ 8 ∧ 8 < 8 + 1) ∧
    (1 ≤ 8 ∧ 0 + 8 ≤ 8 ∧ demo.cfg.bufLen ≤ 16) ∧ (1 ≤ 8 ∧ 0 + 8 ≤ 8 ∧ 15 < demo.cfg.bufLen) := by
  decide

theorem witness_GetBitsReturnsTheField :
    (0x4FFFFFFF#32 : Ctl).extractLsb' 28 4 = 0x4#4 ∧ (2 ^ 20 - 1 < 2 ^ 20 ∧ 7 < 8 ∧ 15 < 16) ∧
    (1 ≤ 1 ∧ 7 + 1 ≤ 8 ∧ 15 < demo.cfg.bufLen) ∧
    (0 = 0 ∨ 8 < 7 + 0 ∨ demo.cfg.bufLen ≤ 0) ∧ (2 = 0 ∨ 8 < 7 + 2 ∨ demo.cfg.bufLen ≤ 0) ∧
    (1 = 0 ∨ 8 < 7 + 1 ∨ demo.cfg.bufLen ≤ 16) := by
  decide

theorem witness_SetBitsReplacesTheField :
    (0xCFFFFFFF#32 : Ctl).extractLsb' 28 4 = 0xC#4 ∧ (2 ^ 20 - 1 < 2 ^ 20 ∧ 7 < 8 ∧ 15 < 16) ∧
    demo.inv = true ∧ (1 ≤ 8 ∧ 0 + 8 ≤ 8 ∧ 15 < demo.cfg.bufLen) ∧
    (0 = 0 ∨ 8 < 7 + 0 ∨ demo.cfg.bufLen ≤ 0) ∧ (8 = 0 ∨ 8 < 1 + 8 ∨ demo.cfg.bufLen ≤ 0) ∧
    (1 = 0 ∨ 8 < 7 + 1 ∨ demo.cfg.bufLen ≤ 16) := by
  decide

/-- The third clause at the last index. -/
theorem witness_WidthEightIsTheWholeByte : 15 < 2 ^ 20 ∧ 15 < demo.cfg.bufLen := by decide

theorem witness_OperationsChangeOnlyTheirField :
    demo.inv = true ∧ Defined demo.cfg (.getU64 8) ∧ Defined demo.cfg (.setU64 8 0#64) ∧
    inField (.setU64 8 0#64) 7 = false := by
  refine ⟨by decide, ?_, ?_, by decide⟩ <;> simp [Defined, demo, State.start]

/-- Two different buffers that agree on the byte read. -/
theorem witness_OperationsDependOnlyOnBytesRead :
    demo.inv = true ∧ (demoWith 4 0xFF#8).inv = true ∧ demo.cfg = (demoWith 4 0xFF#8).cfg ∧
    demo ≠ demoWith 4 0xFF#8 ∧
    ∀ a, readsBytes (.getU8 3) = true → inField (.getU8 3) a = true →
      demo.byteAt a = (demoWith 4 0xFF#8).byteAt a := by
  refine ⟨by decide, by decide, rfl, by decide, fun a _ h => ?_⟩
  obtain ⟨h1, h2⟩ := (inField_iff _ a).1 h
  obtain rfl : a = 3 := by simp only [index, accessBytes] at h1 h2; omega
  decide

theorem witness_OperationsDoNotDependOnHistory : ∃ t, exec (.setBits 0 2 3 7#64) demo = .next t :=
  ⟨_, rfl⟩

theorem witness_HighBitsOfTheValueAreIgnored :
    (0x1A5#64 : Data).setWidth Width.n8.bits = (0xA5#64 : Data).setWidth Width.n8.bits ∧
    (0x7#64 : Data).setWidth 2 = (0x3#64 : Data).setWidth 2 := by
  decide

theorem witness_ReadSeesTheLatestWrite :
    demo.inv = true ∧ 15 < demo.cfg.bufLen ∧
    (∃ t, execAll [.setU64 7 0#64, .getU8 15] demo = .next t) ∧
    ∀ i ∈ [Instr.setU64 7 0#64, Instr.getU8 15], isWrite i = true → inField i 15 = false :=
  ⟨by decide, by decide, ⟨_, rfl⟩, by decide⟩

theorem witness_OtherWidthsSeeTheBytesWritten :
    demo.inv = true ∧ 12 + 4 ≤ demo.cfg.bufLen ∧ 3 < 4 ∧ (1 ≤ 1 ∧ 7 + 1 ≤ 8) := by decide

theorem witness_WholeByteRoundTrip :
    demo.inv = true ∧ 15 + Width.n8.bytes ≤ demo.cfg.bufLen ∧
    8 + Width.n64.bytes ≤ demo.cfg.bufLen := by
  decide

theorem witness_ByteIndependence :
    demo.inv = true ∧ 7 + Width.n64.bytes ≤ demo.cfg.bufLen ∧
    (6 < 7 ∨ 7 + Width.n64.bytes ≤ 6) ∧ (15 < 7 ∨ 7 + Width.n64.bytes ≤ 15) := by
  decide

theorem witness_BitFieldRoundTrip :
    demo.inv = true ∧ (1 ≤ 8 ∧ 0 + 8 ≤ 8) ∧ (1 ≤ 1 ∧ 7 + 1 ≤ 8) ∧ 15 < demo.cfg.bufLen := by decide

/-- A field with a neighbour on either side. -/
theorem witness_BitFieldIsolation :
    demo.inv = true ∧ (1 ≤ 3 ∧ 2 + 3 ≤ 8) ∧ 15 < demo.cfg.bufLen ∧
    (1 < 8 ∧ (1 < 2 ∨ 2 + 3 ≤ 1)) ∧ (5 < 8 ∧ (5 < 2 ∨ 2 + 3 ≤ 5)) ∧
    (1 ≤ 2 ∧ 0 + 2 ≤ 8 ∧ (0 + 2 ≤ 2 ∨ 2 + 3 ≤ 0)) ∧
    (1 ≤ 3 ∧ 5 + 3 ≤ 8 ∧ (5 + 3 ≤ 2 ∨ 2 + 3 ≤ 5)) := by
  decide

theorem witness_LittleEndianOrdering :
    demo.inv = true ∧ 8 + Width.n64.bytes ≤ demo.cfg.bufLen ∧ 7 < Width.n64.bytes := by decide

theorem witness_MaskCorrectness : 1 ≤ 3 ∧ 5 + 3 ≤ 8 ∧ 15 < demo.cfg.bufLen := by decide

theorem witness_ReadsArePure :
    isWrite (.getBits 15 5 3) = false ∧ Defined demo.cfg (.getBits 15 5 3) := by
  refine ⟨rfl, ?_⟩; simp [Defined, demo, State.start]

theorem witness_WideReadsAreCompositions :
    8 + Width.n64.bytes ≤ demo.cfg.bufLen ∧ 12 + 4 ≤ demo.cfg.bufLen ∧ 8 + 8 ≤ demo.cfg.bufLen := by
  decide

theorem witness_WideWritesAreByteWritesInAnyOrder :
    demo.inv = true ∧ 12 + Width.n32.bytes ≤ demo.cfg.bufLen ∧
    [2, 0, 3, 1].Perm (List.range Width.n32.bytes) := by
  decide

theorem witness_BitFieldsAreCompositionsOfByteAccesses :
    1 ≤ 3 ∧ 5 + 3 ≤ 8 ∧ 15 < demo.cfg.bufLen := by decide

theorem witness_LastWriterWins :
    demo.inv = true ∧ 8 + Width.n64.bytes ≤ demo.cfg.bufLen ∧
    (1 ≤ 3 ∧ 5 + 3 ≤ 8 ∧ 15 < demo.cfg.bufLen) := by
  decide

/-- Two writes side by side, and two bit fields side by side in one byte. -/
theorem witness_DisjointWritesCommute :
    demo.inv = true ∧ isWrite (.setU16 3 0#64) = true ∧ isWrite (.setBits 5 0 8 0#64) = true ∧
    Defined demo.cfg (.setU16 3 0#64) ∧ Defined demo.cfg (.setBits 5 0 8 0#64) ∧
    (∀ a, inField (.setU16 3 0#64) a = true → inField (.setBits 5 0 8 0#64) a = false) ∧
    (15 < demo.cfg.bufLen ∧ 1 ≤ 3 ∧ 2 + 3 ≤ 8 ∧ 1 ≤ 3 ∧ 5 + 3 ≤ 8 ∧ (2 + 3 ≤ 5 ∨ 5 + 3 ≤ 2)) := by
  refine ⟨by decide, rfl, rfl, ?_, ?_, fun a ha => ?_, by decide⟩
  · simp [Defined, demo, State.start]
  · simp [Defined, demo, State.start]
  · rw [inField_iff] at ha
    rw [← Bool.not_eq_true, inField_iff]
    simp only [index, accessBytes] at ha ⊢
    omega

/-- The partition of 95_test_vectors.md 3.3: 2 bits, 3 bits, 3 bits. -/
theorem witness_BitFieldsPackAByte :
    let fs : List (Nat × Nat × Data) := [(5, 3, 6#64), (0, 2, 2#64), (2, 3, 5#64)]
    demo.inv = true ∧ 15 < demo.cfg.bufLen ∧ (∀ f ∈ fs, legalPair f.1 f.2.1 = true) ∧
    ∀ j < 8, (fs.filter (fun f => decide (f.1 ≤ j ∧ j < f.1 + f.2.1))).length = 1 := by
  decide

/-- The top of the buffer and the top of the byte, and the narrowest index port. -/
theorem witness_LanesOfEveryOperation :
    demo.cfg.legal = true ∧ 3 ≤ demo.cfg.idxW ∧
    (Cfg.legal { idxW := 1, bufLen := 2 } = true ∧ (Instr.setU16 0 0#64).wf = true ∧
      Defined { idxW := 1, bufLen := 2 } (.setU16 0 0#64) ∧ 1 < accessBytes (.setU16 0 0#64)) ∧
    ((Instr.setU64 8 0#64).wf = true ∧ Defined demo.cfg (.setU64 8 0#64)) ∧
    ((Instr.getBits 15 7 1).wf = true ∧ Defined demo.cfg (.getBits 15 7 1)) := by
  simp only [Defined]; decide

theorem witness_EnabledLanesAddressTheBuffer :
    demo.cfg.legal = true ∧
    portVerdict demo.cfg (onPorts (decodeFields 0xB0000008#32) demo.cfg.idxW 0#64) = none ∧
    (∃ l ∈ (accessorPorts demo.cfg free0 (onPorts (decodeFields 0xB0000008#32) demo.cfg.idxW 0#64) demo.buf).lanes,
      l.re = true ∨ l.we = true) := by
  decide

theorem witness_BlocksAgreeWithStep : demo.cfg.legal = true := by decide

theorem witness_IdleEnablesNoLane : (idlePorts demo.cfg.idxW).valid = false := rfl

/-- The last index the 16-bit port carries and the first it does not. -/
theorem witness_IndexPortCarriesEveryDefinedIndex :
    demo.cfg.legal = true ∧ (decodeFields 0x0000FFFF#32).idx.toNat < 2 ^ demo.cfg.idxW ∧
    2 ^ demo.cfg.idxW ≤ (decodeFields 0x00010000#32).idx.toNat := by decide

/-- The two clauses at the widths where they meet. -/
theorem witness_BitExtractMaskBlock :
    (1 ≤ (1#4 : BitVec 4).toNat ∧ (1#4 : BitVec 4).toNat ≤ 8) ∧
    (1 ≤ (8#4 : BitVec 4).toNat ∧ (8#4 : BitVec 4).toNat ≤ 8) ∧
    ((0#4 : BitVec 4).toNat = 0 ∨ 8 < (0#4 : BitVec 4).toNat) ∧
    ((9#4 : BitVec 4).toNat = 0 ∨ 8 < (9#4 : BitVec 4).toNat) := by
  decide

/-- Lanes 0 and 7, two lane ports that agree below lane 1 only, and the last place of each width. -/
theorem witness_LittleEndianReconstructorBlock :
    (0 < 8 ∧ 7 < 8) ∧
    (∀ k < 1, (fun _ : Nat => 0xA5#8) k = (fun k : Nat => if k = 0 then 0xA5#8 else 0x5A#8) k) ∧
    15 + Width.n8.bytes ≤ demo.cfg.bufLen ∧ 14 + Width.n16.bytes ≤ demo.cfg.bufLen ∧
    12 + Width.n32.bytes ≤ demo.cfg.bufLen ∧ 8 + Width.n64.bytes ≤ demo.cfg.bufLen := by decide

/-- A presented command with a reserved opcode. -/
theorem witness_CommandDecoderBlock :
    (demo.present ⟨0xF0000000#32, 0#64⟩).pending = [⟨0xF0000000#32, 0#64⟩] ∧
    (commandDecoder true (decodeFields 0xF0000000#32).op).opOk = false := by decide

/-- The legal pairs (7, 1) and (0, 8) at the last index, bits 0 and 7 of the byte, and the pairs
(0, 0) and (7, 2), which are not legal. -/
theorem witness_SubByteMultiplexerBlock :
    (1 ≤ (1#4).toNat ∧ (7#3).toNat + (1#4).toNat ≤ 8) ∧
    (1 ≤ (8#4).toNat ∧ (0#3).toNat + (8#4).toNat ≤ 8) ∧ (0 < 8 ∧ 7 < 8) ∧
    (demo.inv = true ∧ 15 < demo.cfg.bufLen) ∧
    ((0#4).toNat = 0 ∨ 8 < (0#3).toNat + (0#4).toNat) ∧
    ((2#4).toNat = 0 ∨ 8 < (7#3).toNat + (2#4).toNat) := by decide

/-- A bit field across the top of its byte, presented with every lane left open. -/
theorem witness_UndefinedCommandLeavesEveryOutputOpen :
    ¬ DefinedCommand demo.cfg ⟨0x42700000#32, 0#64⟩ ∧
    (decodeFields 0x42700000#32).idx.toNat < 2 ^ demo.cfg.idxW ∧
    (List.replicate 8 (⟨99#17, true, true, 0x5A#8⟩ : Lane demo.cfg.idxW)).length = 8 ∧
    (demo.present ⟨0x42700000#32, 0#64⟩).pending = [⟨0x42700000#32, 0#64⟩] := by
  refine ⟨?_, by decide, by decide, rfl⟩
  rintro ⟨i, h, hd⟩
  obtain rfl : Instr.getBits 0 7 2 = i := Except.ok.inj h
  exact absurd hd (by simp only [Defined]; decide)

end Sys2Proof.Tests
end

section
/-! PROOFS. The whole-byte operations for any access size, the canonical control word, and the
statements of 40_byte_field.md. -/

namespace Sys2Proof

/-! ### The canonical control word: fixed high bits with the index below them -/

/-- An index that fits its field does not reach the opcode bits (30_encoding.md R66). -/
theorem opcode_of_canonicalWord {hi : Ctl} {op : BitVec 4} (hop : hi.extractLsb' 28 4 = op)
    {i : Nat} (h : i < 2 ^ 20) : (hi ||| BitVec.ofNat 32 i).extractLsb' 28 4 = op := by
  have hz : (BitVec.ofNat 32 i).extractLsb' 28 4 = 0#4 := by
    apply BitVec.eq_of_toNat_eq
    simp only [BitVec.extractLsb'_toNat, BitVec.toNat_ofNat, Nat.shiftRight_eq_div_pow]
    omega
  rw [BitVec.extractLsb'_or, hop, hz, BitVec.or_zero]

/-- Below high bits that leave the index field clear, the index field holds the index
(30_encoding.md R66). -/
theorem index_of_canonicalWord {hi : Ctl} (hhi : hi.extractLsb' 0 20 = 0#20) {i : Nat}
    (h : i < 2 ^ 20) : ((hi ||| BitVec.ofNat 32 i).extractLsb' 0 20).toNat = i := by
  rw [BitVec.extractLsb'_or, hhi, BitVec.zero_or]
  simp only [BitVec.extractLsb'_toNat, BitVec.toNat_ofNat, Nat.shiftRight_zero]
  omega

/-- Opcode 0 is `get_u8` of the index field, whatever the other fields hold (30_encoding.md R63,
R65). -/
theorem decode_of_opcode_getU8 (c : Command) (h : c.ctl.extractLsb' 28 4 = 0x0#4) :
    decode c = .ok (.getU8 (c.ctl.extractLsb' 0 20).toNat) := by
  simp [decode, decodeFields, Fields.toInstr, h]

/-- Opcode 8 is `set_u8` of the index field and the value word (30_encoding.md R63, R65). -/
theorem decode_of_opcode_setU8 (c : Command) (h : c.ctl.extractLsb' 28 4 = 0x8#4) :
    decode c = .ok (.setU8 (c.ctl.extractLsb' 0 20).toNat c.wdata) := by
  simp [decode, decodeFields, Fields.toInstr, h]

end Sys2Proof

namespace Sys2Proof.Machine

/-! ### The read and write schemas, for any access size -/

/-- A read of a field that leaves the buffer is refused as U1 (20_memory.md R38). -/
theorem readField_of_lt {n i : Nat} {s : State} (h : s.cfg.bufLen < i + n) :
    readField n i s = .refused .outOfRange :=
  whenDefined_eq_refused.2 (rangePre_of_lt h)

/-- A write of a field that leaves the buffer is refused as U1 (20_memory.md R38). -/
theorem writeField_of_lt {n i : Nat} {v : Data} {s : State} (h : s.cfg.bufLen < i + n) :
    writeField n i v s = .refused .outOfRange :=
  whenDefined_eq_refused.2 (rangePre_of_lt h)

/-- A field of one byte joins to that byte, zero-extended. -/
theorem joinBytes_memRead_one (s : State) (i : Nat) :
    joinBytes (s.memRead i 1) = (s.byteAt i).setWidth 64 := by
  simp [State.memRead, joinBytes]

/-- A write in range stores byte `k` of the value at `buf[i+k]` and changes nothing else
(41_multibyte_fields.md R104). -/
theorem writeField_stores {n i : Nat} (v : Data) {s : State} (hs : s.inv = true)
    (h : i + n ≤ s.cfg.bufLen) :
    ∃ t : State, writeField n i v s = .next t ∧
      t.cfg = s.cfg ∧ t.pending = s.pending ∧ t.results = s.results ∧
      (∀ k < n, t.byteAt (i + k) = byteSlice v k) ∧
      ∀ a, a < i ∨ i + n ≤ a → t.byteAt a = s.byteAt a := by
  obtain ⟨-, hwf, -⟩ := (inv_iff s).1 hs
  refine ⟨s.memWrite i (laneBytes n v), writeField_eq_next.2 ⟨h, rfl⟩, rfl, rfl, rfl, ?_, ?_⟩
  · intro k hk
    rw [byteAt_memWrite_inside hwf (by rwa [length_laneBytes]), getElem_laneBytes]
  · intro a ha
    exact byteAt_memWrite_outside hwf (by rwa [length_laneBytes])

end Sys2Proof.Machine

namespace Sys2Proof.Proofs

open Sys2Proof Sys2Proof.Machine

/-- Settles O15: the read schema at access size 1. -/
theorem getU8ReturnsTheByte : Obligations.GetU8ReturnsTheByte := by
  refine ⟨decode_of_opcode_getU8, fun i v hi => ?_, fun i s hi => ?_, fun i s hi => ?_⟩
  · have hop := opcode_of_canonicalWord (hi := 0x00000000#32) (op := 0x0#4) (by decide) hi
    rw [decode_of_opcode_getU8 ⟨_, v⟩ hop, index_of_canonicalWord (by decide) hi]
  · rw [← joinBytes_memRead_one]
    exact readField_eq_next.2 ⟨hi, rfl⟩
  · exact readField_of_lt (Nat.lt_succ_of_le hi)

/-- Settles O16: the write schema at access size 1, whose field is the index alone. -/
theorem setU8StoresTheLowByte : Obligations.SetU8StoresTheLowByte := by
  refine ⟨decode_of_opcode_setU8, fun i v hi => ?_, fun i v s hs hi => ?_,
    fun i v s hi => ?_⟩
  · have hop := opcode_of_canonicalWord (hi := 0x80000000#32) (op := 0x8#4) (by decide) hi
    rw [decode_of_opcode_setU8 ⟨_, v⟩ hop, index_of_canonicalWord (by decide) hi]
  · obtain ⟨t, ht, hcfg, hpending, hresults, hinside, houtside⟩ :=
      writeField_stores (n := 1) v hs hi
    exact ⟨t, ht, hcfg, hpending, hresults, hinside 0 Nat.one_pos,
      fun a ha => houtside a (by omega)⟩
  · exact writeField_of_lt (Nat.lt_succ_of_le hi)

end Sys2Proof.Proofs
end

section
/-! PROOFS. The whole-byte operations of every width, joined bytes as a number, as bits and as an OR
of shifted bytes, and the statements of 41_multibyte_fields.md. -/

namespace Sys2Proof.Machine

/-! ### The operations `get_uN` and `set_uN`, for every width -/

/-- A whole-byte field has at most as many bytes as the buffer port has lanes (00_scope.md R5). -/
theorem Width.bytes_le (N : Width) : N.bytes ≤ 8 := by cases N <;> decide

theorem Width.bits_eq (N : Width) : N.bits = 8 * N.bytes := by cases N <;> rfl

theorem exec_get (N : Width) (i : Nat) (s : State) : exec (N.get i) s = readField N.bytes i s := by
  cases N <;> rfl

/-- The opcode of `get_uN` selects it with the index field, whatever the other fields hold
(30_encoding.md R63, R65). -/
theorem decode_of_opcode_get (N : Width) (c : Command)
    (h : c.ctl.extractLsb' 28 4 = (N.get 0).opcode) :
    decode c = .ok (N.get (c.ctl.extractLsb' 0 20).toNat) := by
  cases N <;> simp [Width.get, Instr.opcode, decode, decodeFields, Fields.toInstr, h]

/-- The opcode of `set_uN` selects it with the index field and the value word (30_encoding.md R63,
R65). -/
theorem decode_of_opcode_set (N : Width) (c : Command)
    (h : c.ctl.extractLsb' 28 4 = (N.set 0 0#64).opcode) :
    decode c = .ok (N.set (c.ctl.extractLsb' 0 20).toNat c.wdata) := by
  cases N <;> simp [Width.set, Instr.opcode, decode, decodeFields, Fields.toInstr, h]

/-- The canonical word of `get_uN`: its opcode above a clear index field, the index below. -/
theorem decode_canonicalWord_get (N : Width) {hi : Ctl}
    (hop : hi.extractLsb' 28 4 = (N.get 0).opcode) (hidx : hi.extractLsb' 0 20 = 0#20)
    (i : Nat) (v : Data) (h : i < 2 ^ 20) :
    decode ⟨hi ||| BitVec.ofNat 32 i, v⟩ = .ok (N.get i) := by
  rw [decode_of_opcode_get N ⟨_, v⟩ (opcode_of_canonicalWord hop h), index_of_canonicalWord hidx h]

/-- The canonical word of `set_uN`: its opcode above a clear index field, the index below. -/
theorem decode_canonicalWord_set (N : Width) {hi : Ctl}
    (hop : hi.extractLsb' 28 4 = (N.set 0 0#64).opcode) (hidx : hi.extractLsb' 0 20 = 0#20)
    (i : Nat) (v : Data) (h : i < 2 ^ 20) :
    decode ⟨hi ||| BitVec.ofNat 32 i, v⟩ = .ok (N.set i v) := by
  rw [decode_of_opcode_set N ⟨_, v⟩ (opcode_of_canonicalWord hop h), index_of_canonicalWord hidx h]

/-- A read in range hands over its bytes joined, and changes nothing else (41_multibyte_fields.md
R100). -/
theorem readField_of_le {n i : Nat} {s : State} (h : i + n ≤ s.cfg.bufLen) :
    readField n i s = .next (s.deliver (joinBytes (s.memRead i n))) :=
  readField_eq_next.2 ⟨h, rfl⟩

/-! ### Joined bytes as a concatenation -/

theorem joinBytes_singleton (b : Byte) : joinBytes [b] = b.setWidth 64 := by
  simp [joinBytes]

/-- A byte joined in front is the low byte of the concatenation. -/
theorem joinBytes_cons_eq_append {w : Nat} {x : BitVec w} {bs : List Byte}
    (h : joinBytes bs = x.setWidth 64) (b : Byte) :
    joinBytes (b :: bs) = (x ++ b).setWidth 64 := by
  refine BitVec.eq_of_getLsbD_eq fun j hj => ?_
  rw [joinBytes, h, BitVec.getLsbD_or, BitVec.getLsbD_shiftLeft, BitVec.getLsbD_setWidth,
    BitVec.getLsbD_setWidth, BitVec.getLsbD_setWidth, BitVec.getLsbD_append]
  by_cases hlow : j < 8
  · simp [hj, hlow]
  · simp [hj, hlow, show j - 8 < 64 by omega, BitVec.getLsbD_of_ge b j (by omega)]

/-- The two bytes of a 16-bit field (41_multibyte_fields.md R101). -/
theorem joinBytes_memRead_two (s : State) (i : Nat) :
    joinBytes (s.memRead i 2) = (s.byteAt (i + 1) ++ s.byteAt i).setWidth 64 :=
  joinBytes_cons_eq_append (joinBytes_singleton _) _

/-- The four bytes of a 32-bit field (41_multibyte_fields.md R102). -/
theorem joinBytes_memRead_four (s : State) (i : Nat) :
    joinBytes (s.memRead i 4) =
      (s.byteAt (i + 3) ++ s.byteAt (i + 2) ++ s.byteAt (i + 1) ++ s.byteAt i).setWidth 64 :=
  joinBytes_cons_eq_append (joinBytes_cons_eq_append (joinBytes_memRead_two s (i + 2)) _) _

/-- The eight bytes of a 64-bit field (41_multibyte_fields.md R103). -/
theorem joinBytes_memRead_eight (s : State) (i : Nat) :
    joinBytes (s.memRead i 8) =
      (s.byteAt (i + 7) ++ s.byteAt (i + 6) ++ s.byteAt (i + 5) ++ s.byteAt (i + 4) ++
        s.byteAt (i + 3) ++ s.byteAt (i + 2) ++ s.byteAt (i + 1) ++ s.byteAt i).setWidth 64 :=
  joinBytes_cons_eq_append (joinBytes_cons_eq_append (joinBytes_cons_eq_append
    (joinBytes_cons_eq_append (joinBytes_memRead_four s (i + 4)) _) _) _) _

/-! ### Joined bytes as bits, as an OR of shifted bytes and as a sum -/

/-- Byte `k` of a joined field is the byte read at `buf[i+k]`. -/
theorem extractLsb'_joinBytes_memRead (s : State) (i : Nat) {n k : Nat} (hn : n ≤ 8) (hk : k < n) :
    (joinBytes (s.memRead i n)).extractLsb' (8 * k) 8 = s.byteAt (i + k) := by
  refine BitVec.eq_of_getLsbD_eq fun j hj => ?_
  have hdiv : (8 * k + j) / 8 = k := by omega
  have hmod : (8 * k + j) % 8 = j := by omega
  have hlt : 8 * k + j < 64 := by omega
  have hlen : k < (s.memRead i n).length := by rwa [length_memRead]
  rw [BitVec.getLsbD_extractLsb', getLsbD_joinBytes, hdiv, hmod, List.getElem?_eq_getElem hlen,
    getElem_memRead]
  simp [hj, hlt]

/-- A field one byte longer reads that byte last. -/
theorem memRead_succ (s : State) (i n : Nat) :
    s.memRead i (n + 1) = s.memRead i n ++ [s.byteAt (i + n)] := by
  simp [State.memRead, List.range_succ]

/-- A byte joined at the end comes above all the others. -/
theorem joinBytes_concat (bs : List Byte) (b : Byte) :
    joinBytes (bs ++ [b]) = joinBytes bs ||| (b.setWidth 64 <<< (8 * bs.length)) := by
  induction bs with
  | nil => simp [joinBytes]
  | cons a bs ih =>
    rw [List.cons_append, joinBytes, ih, BitVec.shiftLeft_or_distrib, ← BitVec.shiftLeft_add,
      ← BitVec.or_assoc, joinBytes, List.length_cons, Nat.mul_succ]

/-- The joined field is the OR of its bytes, each shifted to its place (41_multibyte_fields.md R100). -/
theorem joinBytes_memRead_eq_or (s : State) (i n : Nat) :
    joinBytes (s.memRead i n) = (List.range n).foldl
      (fun x k => x ||| ((s.byteAt (i + k)).setWidth 64 <<< (8 * k))) 0#64 := by
  induction n with
  | zero => rfl
  | succ n ih =>
    rw [memRead_succ, joinBytes_concat, length_memRead, ih, List.range_succ, List.foldl_concat]

/-- Joined bytes are an unsigned number of eight bits a byte. -/
theorem toNat_joinBytes_lt (bs : List Byte) : (joinBytes bs).toNat < 2 ^ (8 * bs.length) := by
  refine Nat.lt_pow_two_of_testBit _ fun j hj => ?_
  have hnone : bs[j / 8]? = none := List.getElem?_eq_none (by omega)
  rw [BitVec.testBit_toNat, getLsbD_joinBytes, hnone]
  simp

/-- A byte shifted to one of the eight places of `rdata` loses no bit. -/
theorem toNat_byte_shiftLeft (b : Byte) {n : Nat} (hn : n < 8) :
    ((b.setWidth 64 : Data) <<< (8 * n)).toNat = b.toNat <<< (8 * n) := by
  have hfit : b.toNat <<< (8 * n) < 2 ^ 64 :=
    calc b.toNat <<< (8 * n)
        < 2 ^ (8 + 8 * n) := Nat.shiftLeft_lt b.isLt
      _ ≤ 2 ^ 64 := Nat.pow_le_pow_right (by decide) (by omega)
  rw [BitVec.toNat_shiftLeft, BitVec.toNat_setWidth_of_le (by decide), Nat.mod_eq_of_lt hfit]

/-- The joined field is the sum of its bytes, each at its weight: the OR of R100 never carries, since
the bytes below place `n` stay below `2^(8n)`. -/
theorem toNat_joinBytes_memRead (s : State) (i : Nat) {n : Nat} (hn : n ≤ 8) :
    (joinBytes (s.memRead i n)).toNat =
      ((List.range n).map (fun k => (s.byteAt (i + k)).toNat * 2 ^ (8 * k))).sum := by
  induction n with
  | zero => rfl
  | succ n ih =>
    have hlow := toNat_joinBytes_lt (s.memRead i n)
    rw [length_memRead] at hlow
    rw [memRead_succ, joinBytes_concat, length_memRead, BitVec.toNat_or,
      toNat_byte_shiftLeft _ (by omega), Nat.or_comm, ← Nat.shiftLeft_add_eq_or_of_lt hlow,
      Nat.add_comm, ih (by omega), Nat.shiftLeft_eq, List.range_succ]
    simp

end Sys2Proof.Machine

namespace Sys2Proof.Proofs

open Sys2Proof Sys2Proof.Machine

/-- Settles O17: the read schema at access size 2. -/
theorem getU16JoinsTwoBytes : Obligations.GetU16JoinsTwoBytes := by
  refine ⟨decode_of_opcode_get .n16, decode_canonicalWord_get .n16 (by decide) (by decide),
    fun i s hi => ?_, fun i s hi => readField_of_lt hi⟩
  rw [← joinBytes_memRead_two]
  exact readField_of_le hi

/-- Settles O18: the read schema at access size 4. -/
theorem getU32JoinsFourBytes : Obligations.GetU32JoinsFourBytes := by
  refine ⟨decode_of_opcode_get .n32, decode_canonicalWord_get .n32 (by decide) (by decide),
    fun i s hi => ?_, fun i s hi => readField_of_lt hi⟩
  rw [← joinBytes_memRead_four]
  exact readField_of_le hi

/-- Settles O19: the read schema at access size 8. -/
theorem getU64JoinsEightBytes : Obligations.GetU64JoinsEightBytes := by
  refine ⟨decode_of_opcode_get .n64, decode_canonicalWord_get .n64 (by decide) (by decide),
    fun i s hi => ?_, fun i s hi => readField_of_lt hi⟩
  rw [← joinBytes_memRead_eight]
  exact readField_of_le hi

/-- Settles O20: the write schema at access size 2. -/
theorem setU16StoresTwoBytes : Obligations.SetU16StoresTwoBytes := by
  refine ⟨decode_of_opcode_set .n16, decode_canonicalWord_set .n16 (by decide) (by decide),
    fun i v s hs hi => ?_, fun i v s hi => writeField_of_lt hi⟩
  obtain ⟨t, ht, hcfg, hpending, hresults, hinside, houtside⟩ := writeField_stores v hs hi
  exact ⟨t, ht, hcfg, hpending, hresults, hinside 0 (by decide), hinside 1 (by decide), houtside⟩

/-- Settles O21: the write schema at access size 4. -/
theorem setU32StoresFourBytes : Obligations.SetU32StoresFourBytes := by
  refine ⟨decode_of_opcode_set .n32, decode_canonicalWord_set .n32 (by decide) (by decide),
    fun i v s hs hi => ?_, fun i v s hi => writeField_of_lt hi⟩
  obtain ⟨t, ht, hcfg, hpending, hresults, hinside, houtside⟩ := writeField_stores v hs hi
  exact ⟨t, ht, hcfg, hpending, hresults, hinside 0 (by decide), hinside 1 (by decide),
    hinside 2 (by decide), hinside 3 (by decide), houtside⟩

/-- Settles O22: the write schema at access size 8. -/
theorem setU64StoresEightBytes : Obligations.SetU64StoresEightBytes := by
  refine ⟨decode_of_opcode_set .n64, decode_canonicalWord_set .n64 (by decide) (by decide),
    fun i v s hs hi => ?_, fun i v s hi => writeField_of_lt hi⟩
  obtain ⟨t, ht, hcfg, hpending, hresults, hinside, houtside⟩ := writeField_stores v hs hi
  exact ⟨t, ht, hcfg, hpending, hresults, hinside 0 (by decide), hinside 1 (by decide),
    hinside 2 (by decide), hinside 3 (by decide), hinside 4 (by decide), hinside 5 (by decide),
    hinside 6 (by decide), hinside 7 (by decide), houtside⟩

/-- Settles O23: the bytes joined by the read schema, in each of the forms of R100. -/
theorem readSchemaIsLittleEndian : Obligations.ReadSchemaIsLittleEndian := by
  refine ⟨fun N i s hi => ⟨joinBytes (s.memRead i N.bytes), ?_, fun k hk => ?_, ?_, ?_, ?_⟩,
    fun N i s hi => ?_⟩
  · rw [exec_get]
    exact readField_of_le hi
  · exact extractLsb'_joinBytes_memRead s i N.bytes_le hk
  · exact toNat_joinBytes_memRead s i N.bytes_le
  · exact joinBytes_memRead_eq_or s i N.bytes
  · have hlt := toNat_joinBytes_lt (s.memRead i N.bytes)
    rwa [length_memRead, ← N.bits_eq] at hlt
  · rw [exec_get]
    exact readField_of_lt hi

end Sys2Proof.Proofs
end

section
/-! PROOFS. The packed word of a bit-field operation, the order of its constraints, the byte it
makes, and the statements of 42_bit_fields.md. -/

namespace Sys2Proof

/-! ### Decoding inverts encoding, field by field -/

/-- The bits of an encoded control word: each field's at its place, bit 23 clear (30_encoding.md
R66, R67). -/
theorem getLsbD_encodeFields (f : Fields) {j : Nat} (hj : j < 32) :
    (encodeFields f).getLsbD j =
      if j < 20 then f.idx.getLsbD j
      else if j < 24 then f.bitOff.getLsbD (j - 20)
      else if j < 28 then f.bitW.getLsbD (j - 24)
      else f.op.getLsbD (j - 28) := by
  simp only [encodeFields, BitVec.getLsbD_or, BitVec.getLsbD_shiftLeft, BitVec.getLsbD_setWidth]
  split_ifs with hidx hoff hwidth
  · simp [hj, hidx, show j < 24 by omega, show j < 28 by omega]
  · simp [hj, hidx, hoff, show j < 28 by omega, show j - 20 < 32 by omega,
      BitVec.getLsbD_of_ge f.idx j (by omega)]
  · simp [hj, hidx, hoff, hwidth, show j - 24 < 32 by omega,
      BitVec.getLsbD_of_ge f.idx j (by omega), BitVec.getLsbD_of_ge f.bitOff (j - 20) (by omega)]
  · simp [hj, hidx, hoff, hwidth, show j - 28 < 32 by omega,
      BitVec.getLsbD_of_ge f.idx j (by omega), BitVec.getLsbD_of_ge f.bitOff (j - 20) (by omega),
      BitVec.getLsbD_of_ge f.bitW (j - 24) (by omega)]

/-- The slices of an encoded control word are the fields it was made of (30_encoding.md R67). -/
theorem decodeFields_encodeFields (f : Fields) : decodeFields (encodeFields f) = f := by
  obtain ⟨op, bitW, bitOff, idx⟩ := f
  simp only [decodeFields, Fields.mk.injEq]
  refine ⟨?_, ?_, ?_, ?_⟩ <;> refine BitVec.eq_of_getLsbD_eq fun j hj => ?_ <;>
    rw [BitVec.getLsbD_extractLsb', getLsbD_encodeFields _ (by omega)]
  · simp [hj, show ¬ 28 + j < 20 by omega, show ¬ 28 + j < 24 by omega]
  · simp [hj, show ¬ 24 + j < 20 by omega, show 24 + j < 28 by omega]
  · simp [hj, show 20 + j < 24 by omega]
  · simp [hj]

/-- An encoded control word decodes as the fields it was made of. -/
theorem decode_encodeFields (f : Fields) (v : Data) : decode ⟨encodeFields f, v⟩ = f.toInstr v := by
  rw [decode, decodeFields_encodeFields]

/-! ### The packed word of a bit-field operation -/

/-- Operands that fit their fields, shifted to their places below the opcode, decode as the fields
that hold them (30_encoding.md R66). -/
theorem decode_bitFieldWord {op : BitVec 4} {top : Ctl} (htop : op.setWidth 32 <<< 28 = top)
    {i o w : Nat} (hi : i < 2 ^ 20) (ho : o < 8) (hw : w < 16) (v : Data) :
    decode ⟨top ||| (BitVec.ofNat 32 w <<< 24) ||| (BitVec.ofNat 32 o <<< 20) |||
      BitVec.ofNat 32 i, v⟩ = (bitFieldFields op i o w).toInstr v := by
  rw [← decode_encodeFields, encodeFields, ← htop]
  simp only [bitFieldFields]
  rw [BitVec.setWidth_ofNat_of_le_of_lt (by decide) hi,
    BitVec.setWidth_ofNat_of_le_of_lt (by decide) (show o < 2 ^ 3 from ho),
    BitVec.setWidth_ofNat_of_le_of_lt (by decide) (show w < 2 ^ 4 from hw)]

/-- Fields that hold operands that fit them hold their values. -/
theorem bitFieldFields_toNat (op : BitVec 4) {i o w : Nat} (hi : i < 2 ^ 20) (ho : o < 8)
    (hw : w < 16) :
    (bitFieldFields op i o w).idx.toNat = i ∧ (bitFieldFields op i o w).bitOff.toNat = o ∧
      (bitFieldFields op i o w).bitW.toNat = w :=
  ⟨Nat.mod_eq_of_lt hi, Nat.mod_eq_of_lt ho, Nat.mod_eq_of_lt hw⟩

/-- Opcode 4 is `get_bits` of its fields, whatever the value word holds (30_encoding.md R63,
R65). -/
theorem toInstr_of_op_getBits {f : Fields} (h : f.op = 0x4#4) (v : Data) :
    f.toInstr v = .ok (.getBits f.idx.toNat f.bitOff.toNat f.bitW.toNat) := by
  simp [Fields.toInstr, h]

/-- Opcode 0xC is `set_bits` of its fields and the value word (30_encoding.md R63, R65). -/
theorem toInstr_of_op_setBits {f : Fields} (h : f.op = 0xC#4) (v : Data) :
    f.toInstr v = .ok (.setBits f.idx.toNat f.bitOff.toNat f.bitW.toNat v) := by
  simp [Fields.toInstr, h]

/-- The canonical word of `get_bits` decodes to it (30_encoding.md R66). -/
theorem decode_bitFieldWord_getBits (i o w : Nat) (v : Data) (hi : i < 2 ^ 20) (ho : o < 8)
    (hw : w < 16) :
    decode ⟨0x40000000#32 ||| (BitVec.ofNat 32 w <<< 24) ||| (BitVec.ofNat 32 o <<< 20) |||
      BitVec.ofNat 32 i, v⟩ = .ok (.getBits i o w) := by
  obtain ⟨hidx, hoff, hwidth⟩ := bitFieldFields_toNat 0x4#4 hi ho hw
  rw [decode_bitFieldWord (op := 0x4#4) (by decide) hi ho hw, toInstr_of_op_getBits rfl, hidx, hoff,
    hwidth]

/-- The canonical word of `set_bits` decodes to it (30_encoding.md R66). -/
theorem decode_bitFieldWord_setBits (i o w : Nat) (v : Data) (hi : i < 2 ^ 20) (ho : o < 8)
    (hw : w < 16) :
    decode ⟨0xC0000000#32 ||| (BitVec.ofNat 32 w <<< 24) ||| (BitVec.ofNat 32 o <<< 20) |||
      BitVec.ofNat 32 i, v⟩ = .ok (.setBits i o w v) := by
  obtain ⟨hidx, hoff, hwidth⟩ := bitFieldFields_toNat 0xC#4 hi ho hw
  rw [decode_bitFieldWord (op := 0xC#4) (by decide) hi ho hw, toInstr_of_op_setBits rfl, hidx, hoff,
    hwidth]

end Sys2Proof

namespace Sys2Proof.Machine

/-! ### The constraints of R122, in their order -/

/-- U3 comes first: a width outside 1 to 8. -/
theorem bitPre_of_badWidth (c : Cfg) (i o : Nat) {w : Nat} (h : w = 0 ∨ 8 < w) :
    bitPre c i o w = some .badWidth := by
  rw [bitPre, if_pos (by omega)]

/-- U2 comes next: a field across the top of its byte. -/
theorem bitPre_of_crossing (c : Cfg) (i : Nat) {o w : Nat} (hw : 1 ≤ w) (hw8 : w ≤ 8)
    (h : 8 < o + w) : bitPre c i o w = some .fieldCrossesByte := by
  rw [bitPre, if_neg (not_not.2 ⟨hw, hw8⟩), if_pos (by omega)]

/-- A legal pair leaves the range check of its byte. -/
theorem bitPre_of_legal (c : Cfg) (i : Nat) {o w : Nat} (hw : 1 ≤ w) (how : o + w ≤ 8) :
    bitPre c i o w = rangePre c i 1 := by
  rw [bitPre, if_neg (not_not.2 ⟨hw, by omega⟩), if_neg (not_not.2 how)]

/-- A failed constraint refuses both bit-field operations by its name (42_bit_fields.md R122). -/
theorem exec_bits_of_bitPre {s : State} {i o w : Nat} {r : Refusal}
    (h : bitPre s.cfg i o w = some r) (v : Data) :
    exec (.getBits i o w) s = .refused r ∧ exec (.setBits i o w v) s = .refused r :=
  ⟨whenDefined_eq_refused.2 h, whenDefined_eq_refused.2 h⟩

/-- One failed constraint is enough for a refusal. -/
theorem exists_bitPre_eq_some {c : Cfg} {i o w : Nat} (h : w = 0 ∨ 8 < o + w ∨ c.bufLen ≤ i) :
    ∃ r, bitPre c i o w = some r := by
  have hne : bitPre c i o w ≠ none := fun hnone => by
    obtain ⟨hw, -, how, hi⟩ := bitPre_eq_none.1 hnone
    omega
  exact Option.ne_none_iff_exists'.1 hne

/-! ### Completed bit-field operations -/

/-- A legal `get_bits` hands over the extracted field and changes nothing else (42_bit_fields.md
R124). -/
theorem exec_getBits_of_legal {s : State} {i o w : Nat} (hw : 1 ≤ w) (how : o + w ≤ 8)
    (hi : i < s.cfg.bufLen) :
    exec (.getBits i o w) s = .next (s.deliver ((extractBits (s.byteAt i) o w).setWidth 64)) :=
  execGetBits_eq_next.2 ⟨⟨hw, by omega, how, hi⟩, rfl⟩

/-- A legal `set_bits` stores the composed byte and changes nothing else (42_bit_fields.md R125). -/
theorem exec_setBits_of_legal {s : State} {i o w : Nat} (v : Data) (hw : 1 ≤ w) (how : o + w ≤ 8)
    (hi : i < s.cfg.bufLen) :
    exec (.setBits i o w v) s = .next (s.memWrite i [insertBits (s.byteAt i) o w v]) :=
  execSetBits_eq_next.2 ⟨⟨hw, by omega, how, hi⟩, rfl⟩

/-- A byte stored alone reads as that byte. -/
theorem byteAt_memWrite_singleton {s : State} (hs : s.buf.wf = true) (i : Nat) (b : Byte) :
    (s.memWrite i [b]).byteAt i = b :=
  byteAt_memWrite_inside (bs := [b]) (k := 0) hs Nat.one_pos

/-- A byte stored alone leaves every other byte. -/
theorem byteAt_memWrite_singleton_ne {s : State} (hs : s.buf.wf = true) {i a : Nat} (h : a ≠ i)
    (b : Byte) : (s.memWrite i [b]).byteAt a = s.byteAt a :=
  byteAt_memWrite_outside hs (Nat.lt_or_gt_of_ne h)

/-! ### The mask as a number -/

/-- The mask of a width is `2^w - 1` (42_bit_fields.md R120). -/
theorem mask_eq_ofNat {w : Nat} (hw : w ≤ 8) : mask w = BitVec.ofNat 8 (2 ^ w - 1) := by
  refine BitVec.eq_of_getLsbD_eq fun j hj => ?_
  rw [getLsbD_mask hw, BitVec.getLsbD_ofNat, Nat.testBit_two_pow_sub_one, decide_eq_true hj,
    Bool.true_and]

/-- At width 8 too the mask's number loses nothing to its 8 bits. -/
theorem toNat_mask {w : Nat} (hw : w ≤ 8) : (mask w).toNat = 2 ^ w - 1 := by
  have hpow : 2 ^ w ≤ 2 ^ 8 := Nat.pow_le_pow_right (by decide) hw
  rw [mask_eq_ofNat hw, BitVec.toNat_ofNat, Nat.mod_eq_of_lt (by omega)]

/-- The inserted bits are computed from the low byte of the value alone (42_bit_fields.md R125). -/
theorem ins_eq (o w : Nat) (v : Data) : ins o w v = (v.setWidth 8 &&& mask w) <<< o := by
  rw [ins, BitVec.setWidth_shiftLeft_of_le (by decide), BitVec.setWidth_and,
    BitVec.setWidth_setWidth_of_le _ (by decide), BitVec.setWidth_eq]

/-- The composed byte of `set_bits`, its mask written as a number (42_bit_fields.md R125). -/
theorem insertBits_eq {w : Nat} (hw : w ≤ 8) (old : Byte) (o : Nat) (v : Data) :
    insertBits old o w v = (old &&& ~~~ (BitVec.ofNat 8 (2 ^ w - 1) <<< o)) |||
      ((v.setWidth 8 &&& BitVec.ofNat 8 (2 ^ w - 1)) <<< o) := by
  rw [insertBits, ins_eq, sel, mask_eq_ofNat hw]

end Sys2Proof.Machine

namespace Sys2Proof.Proofs

open Sys2Proof Sys2Proof.Machine

/-- Settles O24: the mask's bits and its number. -/
theorem maskSetsTheLowBits : Obligations.MaskSetsTheLowBits :=
  fun _ _ hw => ⟨fun j _ => getLsbD_mask hw j, toNat_mask hw⟩

/-- Settles O26: the branches of the shared precondition, which both operations test first. -/
theorem bitFieldConstraintsInOrder : Obligations.BitFieldConstraintsInOrder := by
  refine ⟨fun i o w v s => ⟨fun hw => ?_, fun hw hw8 how => ?_, fun hw how hi => ?_,
    fun hw how hi => ?_⟩, fun ctl => ?_, by decide⟩
  · exact exec_bits_of_bitPre (bitPre_of_badWidth s.cfg i o hw) v
  · exact exec_bits_of_bitPre (bitPre_of_crossing s.cfg i hw hw8 how) v
  · have hrange := rangePre_of_lt (n := 1) (Nat.lt_succ_of_le hi)
    exact exec_bits_of_bitPre ((bitPre_of_legal s.cfg i hw how).trans hrange) v
  · exact ⟨⟨_, exec_getBits_of_legal hw how hi⟩, _, exec_setBits_of_legal v hw how hi⟩
  · exact ⟨Nat.le_of_lt_succ (decodeFields ctl).bitOff.isLt,
      Nat.le_of_lt_succ (decodeFields ctl).bitW.isLt⟩

/-- Settles O27: the extracted field, its mask written as a number. -/
theorem getBitsReturnsTheField : Obligations.GetBitsReturnsTheField := by
  refine ⟨fun c h => toInstr_of_op_getBits (f := decodeFields c.ctl) h c.wdata,
    decode_bitFieldWord_getBits, fun i o w s hw how hi => ?_, fun i o w s h => ?_⟩
  · rw [← mask_eq_ofNat (by omega)]
    exact exec_getBits_of_legal hw how hi
  · obtain ⟨r, hr⟩ := exists_bitPre_eq_some h
    exact ⟨r, (exec_bits_of_bitPre hr 0#64).1⟩

/-- Settles O28: the composed byte as a formula and bit by bit, stored alone. -/
theorem setBitsReplacesTheField : Obligations.SetBitsReplacesTheField := by
  refine ⟨fun c h => toInstr_of_op_setBits (f := decodeFields c.ctl) h c.wdata,
    decode_bitFieldWord_setBits, fun i o w v s hs hw how hi => ?_, fun i o w v s h => ?_⟩
  · have hw8 : w ≤ 8 := by omega
    obtain ⟨-, hwf, -⟩ := (inv_iff s).1 hs
    have hbyte := byteAt_memWrite_singleton hwf i (insertBits (s.byteAt i) o w v)
    refine ⟨_, exec_setBits_of_legal v hw how hi, rfl, rfl, rfl, ?_, fun j hj => ?_,
      fun a ha => byteAt_memWrite_singleton_ne hwf ha _⟩
    · rw [hbyte, insertBits_eq hw8]
    · rw [hbyte, getLsbD_insertBits hw8 _ _ hj]
  · obtain ⟨r, hr⟩ := exists_bitPre_eq_some h
    exact ⟨r, (exec_bits_of_bitPre hr v).2⟩

end Sys2Proof.Proofs
end

section
/-! PROOFS. Reads after writes, for whole bytes and for bit fields, and the statements of
43_guarantees.md R140 to R145. -/

namespace Sys2Proof.Machine

/-! ### Reading a whole-byte field after it is written -/

theorem exec_set (N : Width) (i : Nat) (v : Data) (s : State) :
    exec (N.set i v) s = writeField N.bytes i v s := by
  cases N <;> rfl

/-- A field whose bytes are those of a value reads as them (20_memory.md R37). -/
theorem memRead_eq_laneBytes {t : State} {i n : Nat} {v : Data}
    (h : ∀ k < n, t.byteAt (i + k) = byteSlice v k) : t.memRead i n = laneBytes n v :=
  List.map_congr_left fun k hk => h k (List.mem_range.1 hk)

/-- Joining the low bytes of a value gives back the value truncated to them (41_multibyte_fields.md
R100, R104). -/
theorem joinBytes_laneBytes (n : Nat) (v : Data) :
    joinBytes (laneBytes n v) = BitVec.ofNat 64 (v.toNat % 2 ^ (8 * n)) := by
  refine BitVec.eq_of_getLsbD_eq fun j hj => ?_
  rw [getLsbD_joinBytes, BitVec.getLsbD_ofNat, Nat.testBit_mod_two_pow, BitVec.testBit_toNat]
  by_cases hin : j < 8 * n
  · have hlen : j / 8 < (laneBytes n v).length := by rw [length_laneBytes]; omega
    have hplace : 8 * (j / 8) + j % 8 = j := Nat.div_add_mod j 8
    rw [List.getElem?_eq_getElem hlen, getElem_laneBytes, Option.getD_some, byteSlice,
      BitVec.getLsbD_extractLsb', hplace]
    simp [hin, Nat.mod_lt]
  · have hnone : (laneBytes n v)[j / 8]? = none :=
      List.getElem?_eq_none (by rw [length_laneBytes]; omega)
    simp [hnone, hin]

/-! ### Extracting a bit field after one is inserted -/

/-- An extracted field is the slice `b[o+w-1:o]` (42_bit_fields.md R124). -/
theorem extractBits_eq_extractLsb' {w : Nat} (hw : w ≤ 8) (b : Byte) (o : Nat) :
    extractBits b o w = (b.extractLsb' o w).setWidth 8 := by
  refine BitVec.eq_of_getLsbD_eq fun m hm => ?_
  rw [getLsbD_extractBits hw, BitVec.getLsbD_setWidth, BitVec.getLsbD_extractLsb',
    decide_eq_true hm, Bool.true_and]

/-- A legal `set_bits` completes, stores the composed byte and leaves every other byte
(42_bit_fields.md R125). -/
theorem exec_setBits_stores {s : State} {i o w : Nat} (v : Data) (hs : s.inv = true) (hw : 1 ≤ w)
    (how : o + w ≤ 8) (hi : i < s.cfg.bufLen) :
    ∃ t : State, exec (.setBits i o w v) s = .next t ∧ t.cfg = s.cfg ∧
      t.byteAt i = insertBits (s.byteAt i) o w v ∧ ∀ a, a ≠ i → t.byteAt a = s.byteAt a := by
  obtain ⟨-, hwf, -⟩ := (inv_iff s).1 hs
  exact ⟨_, exec_setBits_of_legal v hw how hi, rfl, byteAt_memWrite_singleton hwf i _,
    fun a ha => byteAt_memWrite_singleton_ne hwf ha _⟩

/-- The field just inserted holds the low bits of the value (42_bit_fields.md R126). -/
theorem extractBits_insertBits_same {o w : Nat} (how : o + w ≤ 8) (old : Byte) (v : Data) :
    (extractBits (insertBits old o w v) o w).setWidth 64 = v &&& BitVec.ofNat 64 (2 ^ w - 1) := by
  have hw : w ≤ 8 := by omega
  refine BitVec.eq_of_getLsbD_eq fun m hm => ?_
  rw [BitVec.getLsbD_setWidth, getLsbD_extractBits hw, BitVec.getLsbD_and, BitVec.getLsbD_ofNat,
    Nat.testBit_two_pow_sub_one]
  by_cases hin : m < w
  · rw [getLsbD_insertBits hw _ _ (by omega), if_pos ⟨by omega, by omega⟩, Nat.add_sub_cancel_left]
    simp [hm, hin]
  · simp [hin]

/-- Outside the inserted field a bit is as before (42_bit_fields.md R126). -/
theorem getLsbD_insertBits_outside {o w : Nat} (hw : w ≤ 8) (old : Byte) (v : Data) {j : Nat}
    (hj : j < 8) (h : j < o ∨ o + w ≤ j) :
    (insertBits old o w v).getLsbD j = old.getLsbD j := by
  rw [getLsbD_insertBits hw _ _ hj, if_neg (by omega)]

/-- A field apart from the inserted one extracts as before (43_guarantees.md R143). -/
theorem extractBits_insertBits_disjoint {o w o' w' : Nat} (hw : w ≤ 8) (how' : o' + w' ≤ 8)
    (h : o' + w' ≤ o ∨ o + w ≤ o') (old : Byte) (v : Data) :
    extractBits (insertBits old o w v) o' w' = extractBits old o' w' := by
  refine BitVec.eq_of_getLsbD_eq fun m _ => ?_
  rw [getLsbD_extractBits (by omega), getLsbD_extractBits (by omega)]
  by_cases hin : m < w'
  · rw [getLsbD_insertBits_outside hw old v (by omega) (by omega)]
  · rw [decide_eq_false hin, Bool.false_and, Bool.false_and]

end Sys2Proof.Machine

namespace Sys2Proof.Proofs

open Sys2Proof Sys2Proof.Machine

/-- Settles O36: the field reads as the bytes written, which join to the truncated value. -/
theorem wholeByteRoundTrip : Obligations.WholeByteRoundTrip := by
  intro N i v s hs hi
  obtain ⟨t, ht, hcfg, -, -, hinside, -⟩ := writeField_stores v hs hi
  refine ⟨t, (exec_set N i v s).trans ht, ?_⟩
  rw [exec_get, readField_of_le (by rwa [hcfg]), memRead_eq_laneBytes hinside,
    joinBytes_laneBytes, ← N.bits_eq]
  rfl

/-- Settles O37: the frame of the write schema. -/
theorem byteIndependence : Obligations.ByteIndependence := by
  intro N i v s hs hi
  obtain ⟨t, ht, -, -, -, -, houtside⟩ := writeField_stores v hs hi
  exact ⟨t, (exec_set N i v s).trans ht, houtside⟩

/-- Settles O38: the composed byte is stored, and extracting the field inserted last gives the low
bits of the value. -/
theorem bitFieldRoundTrip : Obligations.BitFieldRoundTrip := by
  intro i o w v s hs hw how hi
  obtain ⟨t, ht, hcfg, hbyte, -⟩ := exec_setBits_stores v hs hw how hi
  refine ⟨t, ht, ?_⟩
  rw [exec_getBits_of_legal hw how (by rwa [hcfg]), hbyte, extractBits_insertBits_same how]
  rfl

/-- Settles O39: the composed byte keeps the bits outside its field, so a disjoint field extracts
alike from it and from the byte before. -/
theorem bitFieldIsolation : Obligations.BitFieldIsolation := by
  intro i o w v s hs hw how hi
  have hw8 : w ≤ 8 := by omega
  obtain ⟨t, ht, hcfg, hbyte, hother⟩ := exec_setBits_stores v hs hw how hi
  refine ⟨t, ht, fun j hj hout => ?_, hother, fun o' w' hw' how' hdisj =>
    ⟨_, exec_getBits_of_legal hw' how' hi, ?_⟩⟩
  · rw [hbyte, getLsbD_insertBits_outside hw8 _ _ hj hout]
  · rw [exec_getBits_of_legal hw' how' (by rwa [hcfg]), hbyte,
      extractBits_insertBits_disjoint hw8 how' hdisj]
    rfl

/-- Settles O40: the bytes the write schema stores. -/
theorem littleEndianOrdering : Obligations.LittleEndianOrdering := by
  intro N i v s hs hi
  obtain ⟨t, ht, -, -, -, hinside, -⟩ := writeField_stores v hs hi
  exact ⟨t, (exec_set N i v s).trans ht, hinside⟩

/-- Settles O41: the result is the slice of the byte, whose width bounds it. -/
theorem maskCorrectness : Obligations.MaskCorrectness := by
  intro i o w s hw how hi
  have hw8 : w ≤ 8 := by omega
  have hslice : ((extractBits (s.byteAt i) o w).setWidth 64).toNat =
      ((s.byteAt i).extractLsb' o w).toNat := by
    rw [extractBits_eq_extractLsb' hw8, BitVec.toNat_setWidth_of_le (by decide),
      BitVec.toNat_setWidth_of_le hw8]
  refine ⟨_, exec_getBits_of_legal hw how hi, hslice, ?_⟩
  rw [hslice]
  exact Nat.le_sub_one_of_lt (BitVec.isLt _)

end Sys2Proof.Proofs
end

section
/-! PROOFS. Which refusal the blocks' verdict names and which one a step gives, what the
reconstructor joins, and the statements of 44_blocks.md. -/

namespace Sys2Proof.Machine

/-! ### One verdict for the blocks and for a step -/

/-- The precondition every operation tests before it ends (60_exceptions.md R191). -/
def precondition (c : Cfg) : Instr → Option Refusal
  | .getU8 i         => rangePre c i 1
  | .getU16 i        => rangePre c i 2
  | .getU32 i        => rangePre c i 4
  | .getU64 i        => rangePre c i 8
  | .getBits i o w   => bitPre c i o w
  | .setU8 i _       => rangePre c i 1
  | .setU16 i _      => rangePre c i 2
  | .setU32 i _      => rangePre c i 4
  | .setU64 i _      => rangePre c i 8
  | .setBits i o w _ => bitPre c i o w

/-- An operation is refused exactly by its failed precondition. -/
theorem exec_eq_refused {i : Instr} {s : State} {r : Refusal} :
    exec i s = .refused r ↔ precondition s.cfg i = some r := by
  cases i <;> exact whenDefined_eq_refused

theorem rangePre_eq (c : Cfg) (i n : Nat) :
    rangePre c i n = if c.bufLen < i + n then some .outOfRange else none := by
  by_cases h : c.bufLen < i + n
  · rw [rangePre_of_lt h, if_pos h]
  · rw [rangePre_of_le (not_lt.1 h), if_neg h]

/-- A whole-byte opcode can fail its range check only (20_memory.md R38). -/
theorem verdict_of_wholeByte {op : BitVec 4} (hok : (commandDecoder true op).opOk = true)
    (hbits : (commandDecoder true op).isBits = false) (cfg : Cfg) (bitW : BitVec 4)
    (bitOff : BitVec 3) (i : Nat) :
    verdict cfg op bitW bitOff i = rangePre cfg i (commandDecoder true op).n := by
  simp [verdict, hok, hbits, rangePre_eq]

/-- A bit-field opcode fails the checks of 42_bit_fields.md R122, in their order. -/
theorem verdict_of_bitField {op : BitVec 4} (hok : (commandDecoder true op).opOk = true)
    (hbits : (commandDecoder true op).isBits = true) (cfg : Cfg) (bitW : BitVec 4)
    (bitOff : BitVec 3) (i : Nat) :
    verdict cfg op bitW bitOff i = bitPre cfg i bitOff.toNat bitW.toNat := by
  have hn : (commandDecoder true op).n = 1 := if_pos hbits
  simp [verdict, hok, hbits, hn, bitPre, rangePre_eq, imp_iff_not_or]

/-- `op_ok` holds exactly of the ten assigned opcodes (44_blocks.md R161). -/
theorem opOk_iff (valid : Bool) (op : BitVec 4) :
    (commandDecoder valid op).opOk = true ↔
      op ∈ [0x0#4, 0x1#4, 0x2#4, 0x3#4, 0x4#4, 0x8#4, 0x9#4, 0xA#4, 0xB#4, 0xC#4] := by
  revert valid op; decide

theorem opOk_of_reserved {op : BitVec 4} (h : op ∈ [0x5#4, 0x6#4, 0x7#4, 0xD#4, 0xE#4, 0xF#4]) :
    (commandDecoder true op).opOk = false := by
  revert op; decide

/-- A reserved opcode is refused by name, whatever the other fields hold (30_encoding.md R70). -/
theorem packedVerdict_of_reserved {x : Fields} (h : (commandDecoder true x.op).opOk = false)
    (cfg : Cfg) : packedVerdict cfg x = some (.reservedOpcode x.op) :=
  if_pos h

/-- The verdict on the fields of an operation is the precondition the operation tests: opcode by
opcode, four whole-byte reads, `get_bits`, four whole-byte writes, `set_bits`. -/
theorem packedVerdict_of_toInstr {x : Fields} {v : Data} {i : Instr} (h : x.toInstr v = .ok i)
    (cfg : Cfg) : packedVerdict cfg x = precondition cfg i := by
  obtain ⟨op, bitW, bitOff, idx⟩ := x
  change verdict cfg op bitW bitOff idx.toNat = precondition cfg i
  rcases toInstr_cases ⟨op, bitW, bitOff, idx⟩ v with
    ⟨rfl, hi⟩ | ⟨rfl, hi⟩ | ⟨rfl, hi⟩ | ⟨rfl, hi⟩ | ⟨rfl, hi⟩ | ⟨rfl, hi⟩ | ⟨rfl, hi⟩ | ⟨rfl, hi⟩ |
    ⟨rfl, hi⟩ | ⟨rfl, hi⟩ | ⟨-, hi⟩ <;>
    cases hi.symm.trans h
  iterate 4 exact verdict_of_wholeByte (by decide) (by decide) ..
  · exact verdict_of_bitField (by decide) (by decide) ..
  iterate 4 exact verdict_of_wholeByte (by decide) (by decide) ..
  · exact verdict_of_bitField (by decide) (by decide) ..

/-- Fields rejected by name have that verdict. -/
theorem packedVerdict_of_reject {x : Fields} {v : Data} {op : BitVec 4}
    (h : x.toInstr v = .error (.reservedOpcode op)) (cfg : Cfg) :
    packedVerdict cfg x = some (.reservedOpcode op) := by
  rcases toInstr_cases x v with
    ⟨-, hi⟩ | ⟨-, hi⟩ | ⟨-, hi⟩ | ⟨-, hi⟩ | ⟨-, hi⟩ | ⟨-, hi⟩ | ⟨-, hi⟩ | ⟨-, hi⟩ | ⟨-, hi⟩ |
    ⟨-, hi⟩ | ⟨hop, hi⟩ <;>
    cases hi.symm.trans h
  exact packedVerdict_of_reserved (opOk_of_reserved hop) cfg

/-- With a command presented, a step performs the operation it decodes to. -/
theorem step_of_decode {s : State} {c : Command} {rest : List Command} {i : Instr}
    (hp : s.pending = c :: rest) (hd : decode c = .ok i) :
    step s = exec i { s with pending := rest } := by
  simp [step, nextCommand, hp, hd]

/-- A presented command that decodes to no operation is refused as U6 (30_encoding.md R70). -/
theorem step_of_reject {s : State} {c : Command} {rest : List Command} {op : BitVec 4}
    (hp : s.pending = c :: rest) (hd : decode c = .error (.reservedOpcode op)) :
    step s = .refused (.reservedOpcode op) := by
  simp [step, nextCommand, hp, hd, refuseReject]

/-- What the verdict refuses the step refuses, by the same name. -/
theorem step_of_packedVerdict {s : State} {c : Command} {rest : List Command} {r : Refusal}
    (hp : s.pending = c :: rest) (hv : packedVerdict s.cfg (decodeFields c.ctl) = some r) :
    step s = .refused r := by
  cases hd : decode c with
  | ok i =>
    rw [step_of_decode hp hd, exec_eq_refused]
    exact (packedVerdict_of_toInstr hd s.cfg).symm.trans hv
  | error e =>
    obtain ⟨op⟩ := e
    rw [step_of_reject hp hd, ← Option.some.inj ((packedVerdict_of_reject hd s.cfg).symm.trans hv)]

/-- What the verdict refuses the step through the blocks refuses, by the same name. -/
theorem blockStep_of_packedVerdict {s : State} {c : Command} {rest : List Command} {r : Refusal}
    (hp : s.pending = c :: rest) (hv : packedVerdict s.cfg (decodeFields c.ctl) = some r)
    (f : Free s.cfg.idxW) : blockStep s f = .refused r := by
  simp only [blockStep, hp, hv]

/-- The verdict names a refusal exactly for an undefined command (30_encoding.md R67). -/
theorem packedVerdict_ne_none_iff (cfg : Cfg) (c : Command) :
    packedVerdict cfg (decodeFields c.ctl) ≠ none ↔ ¬ DefinedCommand cfg c :=
  not_congr (packedVerdict_eq_none_iff cfg (decodeFields c.ctl) c.wdata)

/-! ### Free values that drive any choice of outputs -/

/-- Free values whose choice for an undefined command is the given ports; the others settle nothing
there (44_blocks.md R177). -/
def Free.driving {idxW : Nat} (q : Ports idxW) : Free idxW :=
  { mask           := 0#8
    ext            := 0#8
    merged         := 0#8
    rdata          := 0#64
    laneAddr       := fun _ => 0#(idxW + 1)
    laneWdata      := fun _ => 0#8
    laneRdata      := fun _ => 0#8
    undefinedRdata := q.rdata
    undefinedLane  := fun k => q.lanes.getD k ⟨0#(idxW + 1), false, false, 0#8⟩ }

/-- On eight lanes the free values give back every lane. -/
theorem map_undefinedLane_driving {idxW : Nat} {q : Ports idxW} (h : q.lanes.length = 8) :
    (List.range laneCount).map (Free.driving q).undefinedLane = q.lanes := by
  refine List.ext_getElem (by simp [laneCount, h]) fun k _ hk => ?_
  simp [Free.driving, hk]

/-- An undefined command lets the accessor drive any ports (44_blocks.md R177). -/
theorem accessorPorts_driving {cfg : Cfg} {p : CommandPorts cfg.idxW} (hp : p.valid = true)
    (hv : portVerdict cfg p ≠ none) (m : Memory) {q : Ports cfg.idxW} (hq : q.lanes.length = 8) :
    accessorPorts cfg (Free.driving q) p m = q := by
  rw [accessorPorts_of_undefined hp hv, map_undefinedLane_driving hq]
  rfl

/-! ### The reconstructor joins the lanes it reads -/

/-- Bytes given by their index join to their OR, each shifted to its place (44_blocks.md R166). -/
theorem joinBytes_map_range (f : Nat → Byte) (n : Nat) :
    joinBytes ((List.range n).map f) =
      (List.range n).foldl (fun x k => x ||| ((f k).setWidth 64 <<< (8 * k))) 0#64 := by
  induction n with
  | zero => rfl
  | succ n ih =>
    rw [List.range_succ, List.map_append, List.map_singleton, joinBytes_concat,
      List.length_map, List.length_range, ih, List.foldl_concat]

/-- The reconstructed value bit by bit: bit `j` belongs to lane `j / 8`, which a lane at or above `n`
holds at zero (44_blocks.md R166). -/
theorem getLsbD_littleEndianReconstructor (rd : Nat → Byte) (n : Nat) {j : Nat} (hj : j < 64) :
    (littleEndianReconstructor rd n).getLsbD j =
      (if j / 8 < n then rd (j / 8) else 0#8).getLsbD (j % 8) := by
  have hjoin : littleEndianReconstructor rd n =
      joinBytes ((List.range laneCount).map fun k => if k < n then rd k else 0#8) :=
    (joinBytes_map_range ..).symm
  have hlane : j / 8 < laneCount := Nat.div_lt_of_lt_mul hj
  rw [hjoin, getLsbD_joinBytes]
  simp [hj, hlane]

/-- Fed with the bytes of a field, the reconstructor joins them. -/
theorem littleEndianReconstructor_eq_joinBytes (s : State) (i n : Nat) :
    littleEndianReconstructor (fun k => s.byteAt (i + k)) n = joinBytes (s.memRead i n) := by
  refine BitVec.eq_of_getLsbD_eq fun j hj => ?_
  rw [getLsbD_littleEndianReconstructor _ _ hj, getLsbD_joinBytes]
  by_cases hk : j / 8 < n
  · simp [hj, hk, State.memRead]
  · simp [hk, State.memRead]

end Sys2Proof.Machine

namespace Sys2Proof.Proofs

open Sys2Proof Sys2Proof.Machine

/-- Settles O55: the value's bits, lane by lane, and the bytes a read in range joins. -/
theorem littleEndianReconstructorBlock : Obligations.LittleEndianReconstructorBlock := by
  refine ⟨fun rd n k hk => ?_, fun rd rd' n h => ?_, fun N i s hi => ?_⟩
  · refine BitVec.eq_of_getLsbD_eq fun j hj => ?_
    have hdiv : (8 * k + j) / 8 = k := by omega
    have hmod : (8 * k + j) % 8 = j := by omega
    rw [BitVec.getLsbD_extractLsb', getLsbD_littleEndianReconstructor _ _ (by omega), hdiv, hmod,
      decide_eq_true hj, Bool.true_and]
  · refine BitVec.eq_of_getLsbD_eq fun j hj => ?_
    rw [getLsbD_littleEndianReconstructor _ _ hj, getLsbD_littleEndianReconstructor _ _ hj]
    split_ifs with hk
    · rw [h _ hk]
    · rfl
  · rw [exec_get, readField_of_le hi, littleEndianReconstructor_eq_joinBytes]
    rfl

/-- Settles O57: the free values repeat the chosen outputs, and both steps refuse what the verdict
names. -/
theorem undefinedCommandLeavesEveryOutputOpen :
    Obligations.UndefinedCommandLeavesEveryOutputOpen := by
  refine ⟨fun cfg c m q hidx hundef hq => ⟨Free.driving q, accessorPorts_driving rfl ?_ m hq⟩,
    fun s f c rest hp hundef => ?_⟩
  · rw [portVerdict_onPorts hidx]
    exact (packedVerdict_ne_none_iff cfg c).2 hundef
  · obtain ⟨r, hr⟩ := Option.ne_none_iff_exists'.1 ((packedVerdict_ne_none_iff s.cfg c).2 hundef)
    exact ⟨r, step_of_packedVerdict hp hr, blockStep_of_packedVerdict hp hr f⟩

/-- Settles O53: in range the block computes `mask(w)`, whose bits are known. -/
theorem bitExtractMaskBlock : Obligations.BitExtractMaskBlock := by
  refine fun idxW f w => ⟨fun hw hw8 => ?_, fun h => if_neg (by omega)⟩
  have hmask : bitExtractMask f w = mask w.toNat := if_pos ⟨hw, hw8⟩
  exact ⟨fun j _ => by rw [hmask, getLsbD_mask hw8], hmask⟩

/-- Settles O56: the signals by their definition, `op_ok` over the sixteen opcodes, and the first
refusal of the verdict. -/
theorem commandDecoderBlock : Obligations.CommandDecoderBlock := by
  refine ⟨fun valid op => ⟨rfl, rfl, ?_, opOk_iff valid op, rfl⟩, fun s c rest hp hok =>
    step_of_packedVerdict hp (packedVerdict_of_reserved hok s.cfg)⟩
  rw [Nat.one_shiftLeft]
  rfl

end Sys2Proof.Proofs
end

section
/-! PROOFS. The opcode of a packed operation, the fields decoding uses, and the statements of
30_encoding.md. -/

namespace Sys2Proof

/-! ### Packing and unpacking -/

/-- Where an index fits its field, `get_uN` is read back from its packed command. -/
theorem decode_encode_get (N : Machine.Width) {i : Nat} (h : i < 2 ^ 20) :
    decode (encode (N.get i)) = .ok (N.get i) := by
  have hidx : (BitVec.ofNat 20 i).toNat = i := Nat.mod_eq_of_lt h
  cases N <;> refine (decode_encodeFields _ _).trans ?_ <;>
    simp only [Machine.Width.get, Instr.fields, wholeByteFields, Fields.toInstr, hidx] <;> rfl

/-- Where an index fits its field, `set_uN` is read back from its packed command. -/
theorem decode_encode_set (N : Machine.Width) {i : Nat} (h : i < 2 ^ 20) (v : Data) :
    decode (encode (N.set i v)) = .ok (N.set i v) := by
  have hidx : (BitVec.ofNat 20 i).toNat = i := Nat.mod_eq_of_lt h
  cases N <;> refine (decode_encodeFields _ _).trans ?_ <;>
    simp only [Machine.Width.set, Instr.fields, wholeByteFields, Fields.toInstr, hidx] <;> rfl

/-- Where its operands fit their fields, `get_bits` is read back from its packed command. -/
theorem decode_encode_getBits {i o w : Nat} (hi : i < 2 ^ 20) (ho : o < 8) (hw : w < 16) :
    decode (encode (.getBits i o w)) = .ok (.getBits i o w) := by
  obtain ⟨hidx, hoff, hwidth⟩ := bitFieldFields_toNat 0x4#4 hi ho hw
  rw [encode, decode_encodeFields, Instr.fields, toInstr_of_op_getBits rfl, hidx, hoff, hwidth]

/-- Where its operands fit their fields, `set_bits` is read back from its packed command. -/
theorem decode_encode_setBits {i o w : Nat} (hi : i < 2 ^ 20) (ho : o < 8) (hw : w < 16)
    (v : Data) : decode (encode (.setBits i o w v)) = .ok (.setBits i o w v) := by
  obtain ⟨hidx, hoff, hwidth⟩ := bitFieldFields_toNat 0xC#4 hi ho hw
  rw [encode, decode_encodeFields, Instr.fields, toInstr_of_op_setBits rfl, hidx, hoff, hwidth]
  rfl

/-- The conditions on the operands of a bit-field operation, one by one. -/
theorem fitsBitField_iff {i o w : Nat} :
    (fitsIdx i && fitsBitOff o && fitsBitW w) = true ↔ i < 2 ^ 20 ∧ o < 8 ∧ w < 16 := by
  simp [fitsIdx, fitsBitOff, fitsBitW, and_assoc]

/-- The top four bits of a packed operation are its opcode (30_encoding.md R66). -/
theorem opcode_encode (i : Instr) : (encode i).ctl.extractLsb' 28 4 = i.opcode := by
  have hop : (encode i).ctl.extractLsb' 28 4 = i.fields.op :=
    congrArg Fields.op (decodeFields_encodeFields i.fields)
  rw [hop]
  cases i <;> rfl

/-- A bit of a control word at or above 28 is a bit of its opcode (30_encoding.md R66). -/
theorem getLsbD_opcode (ctl : Ctl) {j : Nat} (hj : j < 4) :
    (ctl.extractLsb' 28 4).getLsbD j = ctl.getLsbD (28 + j) := by
  rw [BitVec.getLsbD_extractLsb', decide_eq_true hj, Bool.true_and]

/-- The two bits `op[1:0]` in a control word (30_encoding.md R63). -/
theorem extractLsb'_opcode (ctl : Ctl) :
    (ctl.extractLsb' 28 4).extractLsb' 0 2 = ctl.extractLsb' 28 2 :=
  BitVec.eq_of_getLsbD_eq fun j hj => by
    simp only [BitVec.getLsbD_extractLsb', Nat.zero_add, show j < 4 by omega, decide_true,
      Bool.true_and]

/-- All bits of the word `0xFF7FFFFF` but the ignored one are set. -/
theorem getLsbD_usedBits : ∀ j < 32, (0xFF7FFFFF#32).getLsbD j = decide (j ≠ 23) := by decide

/-- Packing the slices of a control word gives the word back but for bit 23 (30_encoding.md R67). -/
theorem encodeFields_decodeFields (ctl : Ctl) :
    encodeFields (decodeFields ctl) = ctl &&& 0xFF7FFFFF#32 := by
  refine BitVec.eq_of_getLsbD_eq fun j hj => ?_
  rw [getLsbD_encodeFields _ hj, BitVec.getLsbD_and, getLsbD_usedBits j hj]
  simp only [decodeFields, BitVec.getLsbD_extractLsb']
  split_ifs with hidx hoff hwidth
  · simp [hidx, show j ≠ 23 by omega]
  · by_cases h : j = 23
    · simp [h]
    · simp [h, show j - 20 < 3 by omega, show 20 + (j - 20) = j by omega]
  · simp [show j ≠ 23 by omega, show j - 24 < 4 by omega, show 24 + (j - 24) = j by omega]
  · simp [show j ≠ 23 by omega, show j - 28 < 4 by omega, show 28 + (j - 28) = j by omega]

/-! ### The fields decoding uses -/

/-- A reserved opcode is rejected by name, whatever the other fields hold (30_encoding.md R70). -/
theorem toInstr_of_reserved {f : Fields}
    (h : f.op ∈ [0x5#4, 0x6#4, 0x7#4, 0xD#4, 0xE#4, 0xF#4]) (v : Data) :
    f.toInstr v = .error (.reservedOpcode f.op) := by
  obtain ⟨op, bitW, bitOff, idx⟩ := f
  simp only [List.mem_cons, List.not_mem_nil, or_false] at h
  rcases h with rfl | rfl | rfl | rfl | rfl | rfl <;> rfl

/-- Fields select no operation exactly by a reserved opcode (30_encoding.md R70). -/
theorem toInstr_eq_error_iff (f : Fields) (v : Data) :
    (∃ r, f.toInstr v = .error r) ↔ f.op ∈ [0x5#4, 0x6#4, 0x7#4, 0xD#4, 0xE#4, 0xF#4] := by
  refine ⟨fun ⟨r, hr⟩ => ?_, fun h => ⟨_, toInstr_of_reserved h v⟩⟩
  rcases toInstr_cases f v with
    ⟨-, hi⟩ | ⟨-, hi⟩ | ⟨-, hi⟩ | ⟨-, hi⟩ | ⟨-, hi⟩ | ⟨-, hi⟩ | ⟨-, hi⟩ | ⟨-, hi⟩ | ⟨-, hi⟩ |
    ⟨-, hi⟩ | ⟨hop, -⟩
  iterate 10 cases hi.symm.trans hr
  exact hop

/-- An operation is settled by opcode and index, by bit offset and bit width in a bit-field operation
(`op[2]`) and by the value in a write (`op[3]`) (30_encoding.md R65): opcode by opcode, four
whole-byte reads, `get_bits`, four whole-byte writes, `set_bits`, a reserved one. -/
theorem toInstr_congr {f g : Fields} {u v : Data} (hop : f.op = g.op) (hidx : f.idx = g.idx)
    (hbits : f.op.getLsbD 2 = true → f.bitW = g.bitW ∧ f.bitOff = g.bitOff)
    (hval : f.op.getLsbD 3 = true → u = v) : f.toInstr u = g.toInstr v := by
  obtain ⟨op, bitW, bitOff, idx⟩ := f
  obtain ⟨op', bitW', bitOff', idx'⟩ := g
  obtain rfl : op = op' := hop
  obtain rfl : idx = idx' := hidx
  rcases toInstr_cases ⟨op, bitW, bitOff, idx⟩ u with
    ⟨rfl, -⟩ | ⟨rfl, -⟩ | ⟨rfl, -⟩ | ⟨rfl, -⟩ | ⟨rfl, -⟩ | ⟨rfl, -⟩ | ⟨rfl, -⟩ | ⟨rfl, -⟩ |
    ⟨rfl, -⟩ | ⟨rfl, -⟩ | ⟨hres, hu⟩
  iterate 4 rfl
  · obtain ⟨rfl, rfl⟩ := hbits (by simp)
    rfl
  iterate 4
    obtain rfl := hval (by simp)
    rfl
  · obtain ⟨rfl, rfl⟩ := hbits (by simp)
    obtain rfl := hval (by simp)
    rfl
  · exact hu.trans (toInstr_of_reserved (f := ⟨op, bitW', bitOff', idx⟩) hres v).symm

end Sys2Proof

namespace Sys2Proof.Proofs

open Sys2Proof Sys2Proof.Machine

/-- Settles O1: the slices of the packed word are the operation's fields, which hold its operands. -/
theorem decodeOfEncodeIsTheOperation : Obligations.DecodeOfEncodeIsTheOperation := by
  intro i h
  cases i with
  | getU8 i => exact decode_encode_get .n8 (of_decide_eq_true h)
  | getU16 i => exact decode_encode_get .n16 (of_decide_eq_true h)
  | getU32 i => exact decode_encode_get .n32 (of_decide_eq_true h)
  | getU64 i => exact decode_encode_get .n64 (of_decide_eq_true h)
  | getBits i o w =>
    obtain ⟨hi, ho, hw⟩ := fitsBitField_iff.1 h
    exact decode_encode_getBits hi ho hw
  | setU8 i v => exact decode_encode_set .n8 (of_decide_eq_true h) v
  | setU16 i v => exact decode_encode_set .n16 (of_decide_eq_true h) v
  | setU32 i v => exact decode_encode_set .n32 (of_decide_eq_true h) v
  | setU64 i v => exact decode_encode_set .n64 (of_decide_eq_true h) v
  | setBits i o w v =>
    obtain ⟨hi, ho, hw⟩ := fitsBitField_iff.1 h
    exact decode_encode_setBits hi ho hw v

/-- Settles O2: both directions of the packing, bit by bit. -/
theorem fieldSlicesRoundTrip : Obligations.FieldSlicesRoundTrip :=
  ⟨decodeFields_encodeFields, encodeFields_decodeFields⟩

/-- Settles O3: `op[2]` and `op[3]` are bits 30 and 31 of the control word. -/
theorem unusedFieldsAreIgnored : Obligations.UnusedFieldsAreIgnored :=
  fun c _ hop hidx hbits hval => toInstr_congr hop hidx
    (fun h => hbits ((getLsbD_opcode c.ctl (by decide)).symm.trans h))
    (fun h => hval ((getLsbD_opcode c.ctl (by decide)).symm.trans h))

/-- Settles O4: the reserved opcodes are those that select nothing, and the step names them. -/
theorem reservedOpcodesAreRefused : Obligations.ReservedOpcodesAreRefused :=
  ⟨fun c => toInstr_eq_error_iff (decodeFields c.ctl) c.wdata,
    fun _ c _ hp hop => step_of_reject hp (toInstr_of_reserved (f := decodeFields c.ctl) hop c.wdata)⟩

/-- Settles O5: each word decoded. -/
theorem wordsOfTheSpecDecode : Obligations.WordsOfTheSpecDecode := by
  unfold Obligations.WordsOfTheSpecDecode
  decide

/-- Settles O6: the bits in question are bits of the opcode, which each operation fixes. -/
theorem opcodeBitsClassifyTheOperation : Obligations.OpcodeBitsClassifyTheOperation := by
  intro i
  rw [← getLsbD_opcode (encode i).ctl (j := 3) (by decide),
    ← getLsbD_opcode (encode i).ctl (j := 2) (by decide), ← extractLsb'_opcode, opcode_encode]
  cases i <;> simp [Instr.opcode, isWrite, accessBytes]

end Sys2Proof.Proofs
end

section
/-! PROOFS. What each operation hands over and what it stores, as functions of the state; the frame
and the dependences of all ten operations. -/

namespace Sys2Proof.Machine

/-! ### The effect of an operation -/

/-- What an operation hands over to the caller: a read its result, a write nothing (30_encoding.md
R62). -/
def newResults : Instr → State → List Data
  | .getU8 i, s         => [joinBytes (s.memRead i 1)]
  | .getU16 i, s        => [joinBytes (s.memRead i 2)]
  | .getU32 i, s        => [joinBytes (s.memRead i 4)]
  | .getU64 i, s        => [joinBytes (s.memRead i 8)]
  | .getBits i o w, s   => [(extractBits (s.byteAt i) o w).setWidth 64]
  | .setU8 _ _, _       => []
  | .setU16 _ _, _      => []
  | .setU32 _ _, _      => []
  | .setU64 _ _, _      => []
  | .setBits _ _ _ _, _ => []

/-- What an operation stores from its index on: a write the bytes of its field, a read nothing
(20_memory.md R37). -/
def storedBytes : Instr → State → List Byte
  | .getU8 _, _         => []
  | .getU16 _, _        => []
  | .getU32 _, _        => []
  | .getU64 _, _        => []
  | .getBits _ _ _, _   => []
  | .setU8 _ v, _       => laneBytes 1 v
  | .setU16 _ v, _      => laneBytes 2 v
  | .setU32 _ v, _      => laneBytes 4 v
  | .setU64 _ v, _      => laneBytes 8 v
  | .setBits i o w v, s => [insertBits (s.byteAt i) o w v]

/-- The state an operation leaves where it completes. -/
def effect (i : Instr) (s : State) : State :=
  { s.memWrite (index i) (storedBytes i s) with results := s.results ++ newResults i s }

@[simp] theorem effect_cfg (i : Instr) (s : State) : (effect i s).cfg = s.cfg := rfl
@[simp] theorem effect_pending (i : Instr) (s : State) : (effect i s).pending = s.pending := rfl
@[simp] theorem effect_buf (i : Instr) (s : State) :
    (effect i s).buf = s.buf.writeAll (index i) (storedBytes i s) := rfl
@[simp] theorem effect_results (i : Instr) (s : State) :
    (effect i s).results = s.results ++ newResults i s := rfl

/-- Every operation ends the one shared way: refused by its precondition, else in its effect. -/
theorem exec_eq (i : Instr) (s : State) :
    exec i s = whenDefined (precondition s.cfg i) (effect i s) := by
  cases i
  iterate 5 rfl
  iterate 5
    rw [effect, newResults, List.append_nil]
    rfl

/-- The precondition of an operation holds exactly where it is defined (60_exceptions.md R191). -/
theorem precondition_eq_none {c : Cfg} {i : Instr} : precondition c i = none ↔ Defined c i := by
  cases i
  iterate 4 exact rangePre_eq_none
  · exact bitPre_eq_none
  iterate 4 exact rangePre_eq_none
  · exact bitPre_eq_none

/-- An operation completes exactly where it is defined, and leaves its effect. -/
theorem exec_eq_next {i : Instr} {s t : State} :
    exec i s = .next t ↔ Defined s.cfg i ∧ t = effect i s := by
  rw [exec_eq, whenDefined_eq_next, precondition_eq_none]

theorem exec_of_defined {i : Instr} {s : State} (h : Defined s.cfg i) :
    exec i s = .next (effect i s) :=
  exec_eq_next.2 ⟨h, rfl⟩

/-! ### The refusals of an operation -/

theorem rangePre_eq_some {c : Cfg} {i n : Nat} {r : Refusal} (h : rangePre c i n = some r) :
    r = .outOfRange := by
  rw [rangePre_eq] at h
  split_ifs at h
  exact (Option.some.inj h).symm

theorem bitPre_eq_some {c : Cfg} {i o w : Nat} {r : Refusal} (h : bitPre c i o w = some r) :
    r = .outOfRange ∨ r = .fieldCrossesByte ∨ r = .badWidth := by
  unfold bitPre at h
  split_ifs at h
  · exact .inl (rangePre_eq_some h)
  · exact .inr (.inl (Option.some.inj h).symm)
  · exact .inr (.inr (Option.some.inj h).symm)

/-- The preconditions name U1, U2 and U3 and nothing else (60_exceptions.md R191). -/
theorem precondition_eq_some {c : Cfg} {i : Instr} {r : Refusal} (h : precondition c i = some r) :
    r = .outOfRange ∨ r = .fieldCrossesByte ∨ r = .badWidth := by
  cases i
  iterate 4 exact .inl (rangePre_eq_some h)
  · exact bitPre_eq_some h
  iterate 4 exact .inl (rangePre_eq_some h)
  · exact bitPre_eq_some h

/-- An undefined operation is refused as U1, U2 or U3. -/
theorem exec_of_not_defined {i : Instr} {s : State} (h : ¬ Defined s.cfg i) :
    ∃ r, exec i s = .refused r ∧ (r = .outOfRange ∨ r = .fieldCrossesByte ∨ r = .badWidth) := by
  obtain ⟨r, hr⟩ := Option.ne_none_iff_exists'.1 (mt precondition_eq_none.1 h)
  exact ⟨r, exec_eq_refused.2 hr, precondition_eq_some hr⟩

/-! ### What a read and what a write do -/

/-- A read hands over one value. -/
theorem newResults_of_read {i : Instr} (h : isWrite i = false) (s : State) :
    ∃ r, newResults i s = [r] := by
  cases i
  iterate 5 exact ⟨_, rfl⟩
  iterate 5 cases h

theorem newResults_of_write {i : Instr} (h : isWrite i = true) (s : State) :
    newResults i s = [] := by
  cases i
  iterate 5 cases h
  iterate 5 rfl

theorem storedBytes_of_read {i : Instr} (h : isWrite i = false) (s : State) :
    storedBytes i s = [] := by
  cases i
  iterate 5 rfl
  iterate 5 cases h

/-- A write stores every byte of its field. -/
theorem length_storedBytes_of_write {i : Instr} (h : isWrite i = true) (s : State) :
    (storedBytes i s).length = accessBytes i := by
  cases i
  iterate 5 cases h
  iterate 4 exact length_laneBytes _ _
  · rfl

/-- No operation stores more than the bytes of its field. -/
theorem length_storedBytes_le (i : Instr) (s : State) :
    (storedBytes i s).length ≤ accessBytes i := by
  cases h : isWrite i
  · rw [storedBytes_of_read h]
    exact Nat.zero_le _
  · exact (length_storedBytes_of_write h s).le

/-- A read hands over its result and changes nothing else. -/
theorem effect_of_read {i : Instr} {s : State} {r : Data} (h : isWrite i = false)
    (hr : newResults i s = [r]) : effect i s = s.deliver r := by
  rw [effect, storedBytes_of_read h, hr]
  rfl

/-- Every operation that completes keeps the invariant. -/
theorem inv_effect {i : Instr} {s : State} (hs : s.inv = true) (hi : Defined s.cfg i) :
    (effect i s).inv = true :=
  inv_memWrite hs ((Nat.add_le_add_left (length_storedBytes_le i s) _).trans hi.field_le)

theorem wf_effect {s : State} (hs : s.buf.wf = true) (i : Instr) :
    (effect i s).buf.wf = true :=
  Memory.wf_writeAll hs _ _

/-- The bytes of a field, counted from its index. -/
theorem exists_of_inField {i : Instr} {a : Nat} (h : inField i a = true) :
    ∃ k < accessBytes i, a = index i + k := by
  obtain ⟨hle, hlt⟩ := (inField_iff i a).1 h
  exact ⟨a - index i, by omega, by omega⟩

theorem inField_index_add {i : Instr} {k : Nat} (h : k < accessBytes i) :
    inField i (index i + k) = true :=
  (inField_iff _ _).2 ⟨Nat.le_add_right _ _, Nat.add_lt_add_left h _⟩

/-- A byte no write of the operation touches reads as before. -/
theorem byteAt_effect_outside {i : Instr} {s : State} {a : Nat} (hs : s.buf.wf = true)
    (h : isWrite i = true → inField i a = false) : (effect i s).byteAt a = s.byteAt a := by
  refine byteAt_memWrite_outside (s := s) hs ?_
  cases hi : isWrite i
  · rw [storedBytes_of_read hi, List.length_nil]
    omega
  · have hout := h hi
    rw [← Bool.not_eq_true, inField_iff] at hout
    rw [length_storedBytes_of_write hi]
    omega

/-- Byte `k` of the field of a write reads as the byte stored there. -/
theorem byteAt_effect_inside {i : Instr} {s : State} {k : Nat} (hs : s.buf.wf = true)
    (hi : isWrite i = true) (hk : k < accessBytes i) :
    (effect i s).byteAt (index i + k) = (storedBytes i s).getD k 0#8 := by
  have hlen : k < (storedBytes i s).length := by rwa [length_storedBytes_of_write hi]
  rw [List.getD_eq_getElem _ _ hlen]
  exact byteAt_memWrite_inside (s := s) hs hlen

/-! ### What an operation depends on -/

/-- Two states agree on the bytes an operation reads (20_memory.md R37). -/
def AgreeOnRead (i : Instr) (s t : State) : Prop :=
  ∀ a, readsBytes i = true → inField i a = true → s.byteAt a = t.byteAt a

theorem memRead_congr {s t : State} {i n : Nat}
    (h : ∀ k < n, s.byteAt (i + k) = t.byteAt (i + k)) : s.memRead i n = t.memRead i n :=
  List.map_congr_left fun k hk => h k (List.mem_range.1 hk)

theorem AgreeOnRead.byteAt_eq {i : Instr} {s t : State} (h : AgreeOnRead i s t)
    (hr : readsBytes i = true) {k : Nat} (hk : k < accessBytes i) :
    s.byteAt (index i + k) = t.byteAt (index i + k) :=
  h _ hr (inField_index_add hk)

/-- What is handed over depends on the bytes read alone. -/
theorem newResults_congr {i : Instr} {s t : State} (h : AgreeOnRead i s t) :
    newResults i s = newResults i t := by
  cases i with
  | getBits i o w =>
    have hb : s.byteAt i = t.byteAt i := h.byteAt_eq rfl Nat.one_pos
    rw [newResults, newResults, hb]
  | setU8 | setU16 | setU32 | setU64 | setBits => rfl
  | getU8 | getU16 | getU32 | getU64 =>
    exact congrArg (fun bs => [joinBytes bs]) (memRead_congr fun _ hk => h.byteAt_eq rfl hk)

/-- What is stored depends on the bytes read alone: on one for `set_bits`, on none for a whole-byte
write. -/
theorem storedBytes_congr {i : Instr} {s t : State} (h : AgreeOnRead i s t) :
    storedBytes i s = storedBytes i t := by
  cases i with
  | setBits i o w v =>
    have hb : s.byteAt i = t.byteAt i := h.byteAt_eq rfl Nat.one_pos
    rw [storedBytes, storedBytes, hb]
  | getU8 | getU16 | getU32 | getU64 | getBits | setU8 | setU16 | setU32 | setU64 => rfl

/-- The effect does not depend on earlier results or later commands, which it passes on. -/
theorem effect_with_history (i : Instr) (s : State) (p : List Command) (rs : List Data) :
    effect i { s with pending := p, results := rs } =
      { effect i s with pending := p, results := rs ++ newResults i s } := by
  have hagree : AgreeOnRead i { s with pending := p, results := rs } s := fun _ _ _ => rfl
  rw [effect, newResults_congr hagree, storedBytes_congr hagree]
  rfl

/-- Values with the same low `n` bytes have the same lane bytes. -/
theorem laneBytes_congr {n : Nat} {u v : Data} (h : u.setWidth (8 * n) = v.setWidth (8 * n)) :
    laneBytes n u = laneBytes n v := by
  refine List.map_congr_left fun k hk => BitVec.eq_of_getLsbD_eq fun j hj => ?_
  have hlow : 8 * k + j < 8 * n := by have := List.mem_range.1 hk; omega
  have hbit := congrArg (fun x => x.getLsbD (8 * k + j)) h
  simp only [BitVec.getLsbD_setWidth, hlow, decide_true, Bool.true_and] at hbit
  rw [byteSlice, byteSlice, BitVec.getLsbD_extractLsb', BitVec.getLsbD_extractLsb', hbit]

/-- Values with the same low `w` bits insert alike. -/
theorem insertBits_congr {w : Nat} (hw : w ≤ 8) {u v : Data} (h : u.setWidth w = v.setWidth w)
    (old : Byte) (o : Nat) : insertBits old o w u = insertBits old o w v := by
  refine BitVec.eq_of_getLsbD_eq fun j hj => ?_
  rw [getLsbD_insertBits hw _ _ hj, getLsbD_insertBits hw _ _ hj]
  split_ifs with hin
  · have hbit := congrArg (fun x => x.getLsbD (j - o)) h
    simpa only [BitVec.getLsbD_setWidth, show j - o < w by omega, decide_true, Bool.true_and]
      using hbit
  · rfl

end Sys2Proof.Machine

namespace Sys2Proof.Proofs

open Sys2Proof Sys2Proof.Machine

/-- Settles O31: definedness is a matter of the configuration, and the effect of the bytes read. -/
theorem operationsDependOnlyOnBytesRead : Obligations.OperationsDependOnlyOnBytesRead := by
  intro i s t hs ht hcfg hagree
  obtain ⟨-, hswf, -⟩ := (inv_iff s).1 hs
  obtain ⟨-, htwf, -⟩ := (inv_iff t).1 ht
  refine ⟨fun r => by rw [exec_eq_refused, exec_eq_refused, hcfg], fun s' hs' => ?_⟩
  obtain ⟨hdef, rfl⟩ := exec_eq_next.1 hs'
  refine ⟨effect i t, newResults i s, exec_of_defined (hcfg ▸ hdef), rfl, ?_, fun hi a ha => ?_⟩
  · rw [newResults_congr hagree]
    rfl
  · obtain ⟨k, hk, rfl⟩ := exists_of_inField ha
    rw [byteAt_effect_inside hswf hi hk, byteAt_effect_inside htwf hi hk, storedBytes_congr hagree]

/-- Settles O14: the precondition is definedness, and what it names is U1, U2 or U3. -/
theorem execCompletesExactlyWhenDefined : Obligations.ExecCompletesExactlyWhenDefined :=
  fun _ _ => ⟨fun h => ⟨_, exec_of_defined h⟩, exec_of_not_defined⟩

/-- Settles O30: the fields of the effect. -/
theorem operationsChangeOnlyTheirField : Obligations.OperationsChangeOnlyTheirField := by
  intro i s hs hdef
  obtain ⟨-, hwf, -⟩ := (inv_iff s).1 hs
  refine ⟨effect i s, exec_of_defined hdef, rfl, rfl, fun hread => ?_, fun hwrite => ?_,
    fun a ha => byteAt_effect_outside hwf fun _ => ha⟩
  · obtain ⟨r, hr⟩ := newResults_of_read hread s
    rw [effect_of_read hread hr]
    exact ⟨rfl, r, rfl⟩
  · rw [effect_results, newResults_of_write hwrite, List.append_nil]

/-- Settles O32: the effect passes the two lists on. -/
theorem operationsDoNotDependOnHistory : Obligations.OperationsDoNotDependOnHistory := by
  intro i s t p rs ht
  obtain ⟨hdef, rfl⟩ := exec_eq_next.1 ht
  exact ⟨newResults i s, rfl, exec_eq_next.2 ⟨hdef, (effect_with_history i s p rs).symm⟩⟩

/-- Settles O33: the bytes stored are settled by the low bits; a width above 8 is refused before any
bit is used. -/
theorem highBitsOfTheValueAreIgnored : Obligations.HighBitsOfTheValueAreIgnored := by
  refine ⟨fun N i u v s h => ?_, fun i o w u v s h => ?_⟩
  · rw [N.bits_eq] at h
    rw [exec_set, exec_set, writeField, writeField, laneBytes_congr h]
  · by_cases hw : w ≤ 8
    · rw [exec_eq, exec_eq, effect, effect]
      simp only [storedBytes, insertBits_congr hw h]
      rfl
    · have hbad := bitPre_of_badWidth s.cfg i o (.inr (not_le.1 hw))
      rw [(exec_bits_of_bitPre hbad u).2, (exec_bits_of_bitPre hbad v).2]

end Sys2Proof.Proofs
end

section
/-! PROOFS. What a step and a run of steps do, and the statements of 70_reset_and_hazards.md on runs
and of 20_memory.md on reads after earlier operations. -/

namespace Sys2Proof.Machine

/-! ### One step -/

/-- `op[3]` says whether a decoded operation is a write (30_encoding.md R63): five reads, five
writes, no operation. -/
theorem isWrite_of_decode {c : Command} {i : Instr} (h : decode c = .ok i) :
    isWrite i = c.ctl.getLsbD 31 := by
  rw [← getLsbD_opcode c.ctl (j := 3) (by decide)]
  change isWrite i = (decodeFields c.ctl).op.getLsbD 3
  rcases toInstr_cases (decodeFields c.ctl) c.wdata with
    ⟨hop, hi⟩ | ⟨hop, hi⟩ | ⟨hop, hi⟩ | ⟨hop, hi⟩ | ⟨hop, hi⟩ | ⟨hop, hi⟩ | ⟨hop, hi⟩ | ⟨hop, hi⟩ |
    ⟨hop, hi⟩ | ⟨hop, hi⟩ | ⟨-, hi⟩ <;>
    cases hi.symm.trans h <;> rw [hop] <;> rfl

/-- A read hands over one result, a write none. -/
theorem length_newResults (i : Instr) (s : State) :
    (newResults i s).length = if isWrite i then 0 else 1 := by
  cases i <;> rfl

/-- With no command presented a step changes nothing. -/
theorem step_of_idle {s : State} (h : s.pending = []) : step s = .next s := by
  simp [step, nextCommand, h, idle]

/-- A defined command's step leaves its operation's effect, the command taken from the list. -/
theorem step_of_defined {s : State} {c : Command} {rest : List Command} {i : Instr}
    (hp : s.pending = c :: rest) (hd : decode c = .ok i) (hi : Defined s.cfg i) :
    step s = .next (effect i { s with pending := rest }) := by
  rw [step_of_decode hp hd, exec_eq_next]
  exact ⟨hi, rfl⟩

/-- An undefined command's step is refused. -/
theorem step_of_not_defined {s : State} {c : Command} {rest : List Command}
    (hp : s.pending = c :: rest) (hc : ¬ DefinedCommand s.cfg c) : ∃ r, step s = .refused r := by
  obtain ⟨r, hr⟩ := Option.ne_none_iff_exists'.1 ((packedVerdict_ne_none_iff s.cfg c).2 hc)
  exact ⟨r, step_of_packedVerdict hp hr⟩

/-- A step either changes nothing, with no command presented, or takes the presented command from the
list and leaves the effect of the defined operation it decodes to. -/
theorem step_eq_next {s t : State} (h : step s = .next t) :
    (s.pending = [] ∧ t = s) ∨
      ∃ c rest i, s.pending = c :: rest ∧ decode c = .ok i ∧ Defined s.cfg i ∧
        t = effect i { s with pending := rest } := by
  rcases step_cases h with hidle | ⟨c, rest, i, hp, hd, ht⟩
  · exact .inl hidle
  · obtain ⟨hi, rfl⟩ := exec_eq_next.1 ht
    exact .inr ⟨c, rest, i, hp, hd, hi, rfl⟩

/-! ### Runs -/

/-- A run of defined commands takes them all and hands over one result for each read. -/
theorem run_of_defined {s : State} (h : ∀ c ∈ s.pending, DefinedCommand s.cfg c) :
    ∃ t : State, Sys2Proof.core.run s.pending.length s = .next t ∧
      t.pending = [] ∧ t.cfg = s.cfg ∧
      ∃ rs, t.results = s.results ++ rs ∧
        rs.length = (s.pending.filter (fun c => !c.ctl.getLsbD 31)).length := by
  generalize hp : s.pending = cs at h ⊢
  induction cs generalizing s with
  | nil => exact ⟨s, rfl, hp, rfl, [], (List.append_nil _).symm, rfl⟩
  | cons c cs ih =>
    obtain ⟨i, hd, hi⟩ := h c (by simp)
    obtain ⟨t, ht, htp, htc, rs, hrs, hlen⟩ :=
      ih (s := effect i { s with pending := cs }) rfl fun d hd => h d (by simp [hd])
    refine ⟨t, ?_, htp, htc, newResults i { s with pending := cs } ++ rs, ?_, ?_⟩
    · rw [List.length_cons, run_of_step_next _ (step_of_defined hp hd hi), ht]
    · rw [hrs, effect_results, List.append_assoc]
    · rw [List.length_append, hlen, length_newResults, isWrite_of_decode hd, List.filter_cons]
      cases c.ctl.getLsbD 31 <;> simp [Nat.add_comm]

/-- A run over all commands that is not refused met defined commands only. -/
theorem defined_of_run {s t : State}
    (h : Sys2Proof.core.run s.pending.length s = .next t) :
    ∀ c ∈ s.pending, DefinedCommand s.cfg c := by
  generalize hp : s.pending = cs at h ⊢
  induction cs generalizing s with
  | nil => simp
  | cons c cs ih =>
    by_cases hc : DefinedCommand s.cfg c
    · obtain ⟨i, hd, hi⟩ := hc
      rw [List.length_cons, run_of_step_next _ (step_of_defined hp hd hi)] at h
      exact List.forall_mem_cons.2 ⟨⟨i, hd, hi⟩, ih (s := effect i { s with pending := cs }) rfl h⟩
    · obtain ⟨r, hr⟩ := step_of_not_defined hp hc
      rw [List.length_cons, run_of_step_refused _ hr] at h
      cases h

/-- A run has an observation exactly when none of its steps is refused (70_reset_and_hazards.md
R224). -/
theorem observation_isSome_iff (s : State) :
    (∃ o, observation s = some o) ↔
      ∃ t : State, Sys2Proof.core.run s.pending.length s = .next t := by
  unfold observation
  cases Sys2Proof.core.run s.pending.length s with
  | next t => exact ⟨fun _ => ⟨t, rfl⟩, fun _ => ⟨_, rfl⟩⟩
  | fault r => exact iff_of_false (fun ⟨_, h⟩ => nomatch h) (fun ⟨_, h⟩ => nomatch h)
  | refused r => exact iff_of_false (fun ⟨_, h⟩ => nomatch h) (fun ⟨_, h⟩ => nomatch h)

/-! ### Operations one after another -/

@[simp] theorem execAll_nil (s : State) : execAll [] s = .next s := rfl

/-- A defined first operation leaves its effect to the others. -/
theorem execAll_cons {i : Instr} {s : State} (h : Defined s.cfg i) (is : List Instr) :
    execAll (i :: is) s = execAll is (effect i s) := by
  rw [execAll, exec_of_defined h]

/-- A sequence that completes begins with a defined operation. -/
theorem execAll_cons_eq_next {i : Instr} {is : List Instr} {s t : State}
    (h : execAll (i :: is) s = .next t) :
    Defined s.cfg i ∧ execAll is (effect i s) = .next t := by
  by_cases hi : Defined s.cfg i
  · exact ⟨hi, (execAll_cons hi is).symm.trans h⟩
  · obtain ⟨r, hr, -⟩ := exec_of_not_defined hi
    rw [execAll, hr] at h
    cases h

/-- A byte that no write of a completed sequence has in its field reads as before it. -/
theorem byteAt_execAll {is : List Instr} {s t : State} {a : Nat} (hs : s.buf.wf = true)
    (h : execAll is s = .next t) (ha : ∀ i ∈ is, isWrite i = true → inField i a = false) :
    t.cfg = s.cfg ∧ t.byteAt a = s.byteAt a := by
  induction is generalizing s with
  | nil =>
    cases h
    exact ⟨rfl, rfl⟩
  | cons i is ih =>
    obtain ⟨-, hrest⟩ := execAll_cons_eq_next h
    obtain ⟨hcfg, hbyte⟩ := ih (wf_effect hs i) hrest fun j hj => ha j (by simp [hj])
    exact ⟨hcfg, hbyte.trans (byteAt_effect_outside hs (ha i (by simp)))⟩

/-- `get_u8` in range hands over the byte, zero-extended, and changes nothing else (40_byte_field.md
R90). -/
theorem exec_getU8_of_lt {i : Nat} {s : State} (h : i < s.cfg.bufLen) :
    exec (.getU8 i) s = .next (s.deliver ((s.byteAt i).setWidth 64)) := by
  rw [← joinBytes_memRead_one]
  exact readField_of_le h

end Sys2Proof.Machine

namespace Sys2Proof.Proofs

open Sys2Proof Sys2Proof.Machine

/-- Settles O9: the effect of a defined operation keeps the invariant, which speaks of no list. -/
theorem stepKeepsTheInvariant : Obligations.StepKeepsTheInvariant := by
  intro s t hs h
  rcases step_eq_next h with ⟨-, rfl⟩ | ⟨c, rest, i, -, -, hi, rfl⟩
  · exact hs
  · exact inv_effect (s := { s with pending := rest }) hs hi

/-- Settles O12: induction over the commands, each of whose steps completes. -/
theorem runOfDefinedCommandsCompletes : Obligations.RunOfDefinedCommandsCompletes :=
  fun _ => run_of_defined

/-- Settles O13: both directions by induction over the commands, since an undefined one is refused. -/
theorem observationExactlyWhenAllDefined : Obligations.ObservationExactlyWhenAllDefined := by
  intro s
  rw [observation_isSome_iff]
  refine ⟨fun ⟨t, ht⟩ => defined_of_run ht, fun h => ?_⟩
  obtain ⟨t, ht, -⟩ := run_of_defined h
  exact ⟨t, ht⟩

/-- Settles O34: the byte is as before the sequence, by induction over it, and `get_u8` returns it. -/
theorem readSeesTheLatestWrite : Obligations.ReadSeesTheLatestWrite := by
  intro is s t a hs ha h hout
  obtain ⟨-, hwf, -⟩ := (inv_iff s).1 hs
  obtain ⟨hcfg, hbyte⟩ := byteAt_execAll hwf h hout
  rw [exec_getU8_of_lt (by rwa [hcfg]), hbyte]
  rfl

/-- Settles O11: the fields of the effect, whose results are one more for a read. -/
theorem stepKeepsConfigurationAndPastResults :
    Obligations.StepKeepsConfigurationAndPastResults := by
  intro s t h
  rcases step_eq_next h with ⟨hp, rfl⟩ | ⟨c, rest, i, hp, -, -, rfl⟩
  · exact ⟨rfl, by rw [hp]; rfl, [], (List.append_nil _).symm, Nat.zero_le _⟩
  · refine ⟨rfl, by rw [hp]; rfl, newResults i { s with pending := rest }, rfl, ?_⟩
    rw [length_newResults]
    split <;> decide

/-- Settles O7: the step's own case of a decoded command. -/
theorem stepPerformsThePresentedCommand : Obligations.StepPerformsThePresentedCommand :=
  fun _ _ _ _ => step_of_decode

/-- Settles O8: the step's own case of an empty list. -/
theorem stepWithoutACommandChangesNothing : Obligations.StepWithoutACommandChangesNothing :=
  fun _ => step_of_idle

/-- Settles O10: the values of reset. -/
theorem resetMeetsTheInvariant : Obligations.ResetMeetsTheInvariant := by
  unfold Obligations.ResetMeetsTheInvariant
  decide

end Sys2Proof.Proofs
end

section
/-! PROOFS. Equal contents as equal states, writes over writes and beside writes, compositions of
narrower accesses, and the statements of 43_guarantees.md R146 to R151. -/

namespace Sys2Proof.Machine

/-! ### Equal contents are equal states -/

/-- In canonical form, states with the same bytes and the same lists are the same. -/
theorem State.ext_bytes {s t : State} (hs : s.buf.wf = true) (ht : t.buf.wf = true)
    (hcfg : s.cfg = t.cfg) (hpending : s.pending = t.pending) (hresults : s.results = t.results)
    (hbytes : ∀ a, s.byteAt a = t.byteAt a) : s = t :=
  State.ext_fields hcfg (Memory.ext hs ht hbytes) hpending hresults

/-- Bytes stored over as many bytes leave what they leave alone. -/
theorem memWrite_memWrite_same {s : State} (hs : s.buf.wf = true) (i : Nat) {bs cs : List Byte}
    (h : bs.length = cs.length) : (s.memWrite i bs).memWrite i cs = s.memWrite i cs := by
  have hwf : (s.memWrite i bs).buf.wf = true := Memory.wf_writeAll hs _ _
  refine State.ext_bytes (Memory.wf_writeAll hwf _ _) (Memory.wf_writeAll hs _ _) rfl rfl rfl
    fun a => ?_
  rw [byteAt_memWrite hwf, byteAt_memWrite hs i cs]
  split_ifs with hin
  · rfl
  · exact byteAt_memWrite_outside hs (by omega)

/-- A byte stored over a byte leaves what it leaves alone. -/
theorem memWrite_memWrite_singleton {s : State} (hs : s.buf.wf = true) (i : Nat) (b c : Byte) :
    (s.memWrite i [b]).memWrite i [c] = s.memWrite i [c] :=
  memWrite_memWrite_same (bs := [b]) (cs := [c]) hs i rfl

/-- A write leaves its bytes stored and nothing else changed. -/
theorem effect_of_write {i : Instr} (h : isWrite i = true) (s : State) :
    effect i s = s.memWrite (index i) (storedBytes i s) := by
  rw [effect, newResults_of_write h, List.append_nil]
  rfl

/-- A whole-byte write in range stores the low bytes of its value. -/
theorem exec_set_of_le {N : Width} {i : Nat} {s : State} (v : Data)
    (h : i + N.bytes ≤ s.cfg.bufLen) :
    exec (N.set i v) s = .next (s.memWrite i (laneBytes N.bytes v)) := by
  rw [exec_set, writeField_eq_next]
  exact ⟨h, rfl⟩

/-! ### Writes to disjoint fields -/

/-- A byte of a write's field holds what the write stores, whether a write beside it runs before or
after. -/
theorem byteAt_effect_effect {i j : Instr} {s : State} {a : Nat} (hs : s.buf.wf = true)
    (hi : isWrite i = true) (hdisj : ∀ a, inField i a = true → inField j a = false)
    (ha : inField i a = true) :
    (effect j (effect i s)).byteAt a = (effect i (effect j s)).byteAt a := by
  have hagree : AgreeOnRead i (effect j s) s := fun b _ hb =>
    byteAt_effect_outside hs fun _ => hdisj b hb
  rw [byteAt_effect_outside (wf_effect hs i) fun _ => hdisj a ha]
  obtain ⟨k, hk, rfl⟩ := exists_of_inField ha
  rw [byteAt_effect_inside hs hi hk, byteAt_effect_inside (wf_effect hs j) hi hk,
    storedBytes_congr hagree]

/-- Writes to disjoint fields commute (43_guarantees.md R150). -/
theorem effect_comm {i j : Instr} {s : State} (hs : s.buf.wf = true) (hi : isWrite i = true)
    (hj : isWrite j = true) (hdisj : ∀ a, inField i a = true → inField j a = false) :
    effect j (effect i s) = effect i (effect j s) := by
  have hdisj' : ∀ a, inField j a = true → inField i a = false := fun a ha =>
    Bool.eq_false_iff.2 fun h => by simp [hdisj a h] at ha
  refine State.ext_bytes (wf_effect (wf_effect hs i) j) (wf_effect (wf_effect hs j) i) rfl rfl ?_
    fun a => ?_
  · simp only [effect_results, newResults_of_write hi, newResults_of_write hj]
  · cases hai : inField i a
    · cases haj : inField j a
      · rw [byteAt_effect_outside (wf_effect hs i) fun _ => haj,
          byteAt_effect_outside hs fun _ => hai,
          byteAt_effect_outside (wf_effect hs j) fun _ => hai,
          byteAt_effect_outside hs fun _ => haj]
      · exact (byteAt_effect_effect hs hj hdisj' haj).symm
    · exact byteAt_effect_effect hs hi hdisj hai

/-- Two defined operations run one after the other. -/
theorem execAll_pair {i j : Instr} {s : State} (hi : Defined s.cfg i) (hj : Defined s.cfg j) :
    execAll [i, j] s = .next (effect j (effect i s)) := by
  rw [execAll_cons hi, execAll_cons (s := effect i s) hj, execAll_nil]

/-! ### Bit fields of one byte -/

/-- A bit field inserted over itself is as inserted alone. -/
theorem insertBits_insertBits_same {w : Nat} (hw : w ≤ 8) (old : Byte) (o : Nat) (u v : Data) :
    insertBits (insertBits old o w u) o w v = insertBits old o w v := by
  refine BitVec.eq_of_getLsbD_eq fun j hj => ?_
  simp only [getLsbD_insertBits hw _ _ hj]
  split_ifs <;> rfl

/-- Bit fields of disjoint ranges are inserted in either order. -/
theorem insertBits_insertBits_comm {o w o' w' : Nat} (hw : w ≤ 8) (hw' : w' ≤ 8)
    (h : o + w ≤ o' ∨ o' + w' ≤ o) (old : Byte) (u v : Data) :
    insertBits (insertBits old o w u) o' w' v = insertBits (insertBits old o' w' v) o w u := by
  refine BitVec.eq_of_getLsbD_eq fun j hj => ?_
  simp only [getLsbD_insertBits hw _ _ hj, getLsbD_insertBits hw' _ _ hj]
  split_ifs
  · omega
  · rfl
  · rfl
  · rfl

/-- One `set_bits` after another to the same byte stores the byte composed twice. -/
theorem execAll_setBits_pair {s : State} {a o w o' w' : Nat} (hs : s.buf.wf = true)
    (ha : a < s.cfg.bufLen) (hw : 1 ≤ w) (how : o + w ≤ 8) (hw' : 1 ≤ w') (how' : o' + w' ≤ 8)
    (u v : Data) :
    execAll [.setBits a o w u, .setBits a o' w' v] s =
      .next (s.memWrite a [insertBits (insertBits (s.byteAt a) o w u) o' w' v]) := by
  have hu : Defined s.cfg (.setBits a o w u) := ⟨hw, by omega, how, ha⟩
  have hv : Defined s.cfg (.setBits a o' w' v) := ⟨hw', by omega, how', ha⟩
  rw [execAll_pair hu hv, effect_of_write rfl, effect_of_write rfl]
  simp only [storedBytes, index]
  rw [byteAt_memWrite_singleton hs, memWrite_memWrite_singleton hs]

/-! ### Byte writes of a wide write -/

/-- One byte of a shifted value is a byte of the value. -/
theorem laneBytes_one_ushiftRight (v : Data) (k : Nat) :
    laneBytes 1 (v >>> (8 * k)) = [byteSlice v k] := by
  refine congrArg (fun b => [b]) (BitVec.eq_of_getLsbD_eq fun j hj => ?_)
  simp [byteSlice, hj]

/-- Byte writes of bytes of one value, in any order and any number: each byte named holds that byte of
the value, every other byte is as before. -/
theorem execAll_byteWrites {i n : Nat} {ks : List Nat} {s : State} (v : Data) (hs : s.inv = true)
    (hi : i + n ≤ s.cfg.bufLen) (hks : ∀ k ∈ ks, k < n) :
    ∃ t : State, execAll (ks.map (fun k => .setU8 (i + k) (v >>> (8 * k)))) s = .next t ∧
      t.buf.wf = true ∧ t.cfg = s.cfg ∧ t.pending = s.pending ∧ t.results = s.results ∧
      (∀ k ∈ ks, t.byteAt (i + k) = byteSlice v k) ∧
      ∀ a, (∀ k ∈ ks, a ≠ i + k) → t.byteAt a = s.byteAt a := by
  have hwf : s.buf.wf = true := ((inv_iff s).1 hs).2.1
  induction ks generalizing s with
  | nil => exact ⟨s, rfl, hwf, rfl, rfl, rfl, by simp, fun _ _ => rfl⟩
  | cons k ks ih =>
    have hk : i + k < s.cfg.bufLen := by have := hks k (by simp); omega
    have hdef : Defined s.cfg (.setU8 (i + k) (v >>> (8 * k))) := hk
    have hfirst : effect (.setU8 (i + k) (v >>> (8 * k))) s =
        s.memWrite (i + k) [byteSlice v k] := by
      rw [effect_of_write rfl, storedBytes, laneBytes_one_ushiftRight]
      rfl
    obtain ⟨t, ht, htwf, hcfg, hpending, hresults, hin, hout⟩ :=
      ih (s := s.memWrite (i + k) [byteSlice v k]) (inv_memWrite hs hk) hi
        (fun l hl => hks l (by simp [hl])) (Memory.wf_writeAll hwf _ _)
    refine ⟨t, ?_, htwf, hcfg, hpending, hresults, fun l hl => ?_, fun a ha => ?_⟩
    · rw [List.map_cons, execAll_cons hdef, hfirst, ht]
    · by_cases hmem : l ∈ ks
      · exact hin l hmem
      · obtain rfl : l = k := (List.mem_cons.1 hl).resolve_right hmem
        rw [hout _ fun m hm => by rintro h; exact hmem (by rwa [Nat.add_left_cancel h]),
          byteAt_memWrite_singleton hwf]
    · rw [hout a fun l hl => ha l (by simp [hl]),
        byteAt_memWrite_singleton_ne hwf (ha k (by simp))]

/-! ### Bit fields that pack a byte -/

/-- A legal pair has a width of 1 to 8 and ends within its byte (42_bit_fields.md R122). -/
theorem legalPair_iff {o w : Nat} : legalPair o w = true ↔ 1 ≤ w ∧ w ≤ 8 ∧ o + w ≤ 8 := by
  simp [legalPair, and_assoc]

/-- Bit `j` lies in the bit field with this offset, width and value. -/
def covers (j : Nat) (f : Nat × Nat × Data) : Bool := decide (f.1 ≤ j ∧ j < f.1 + f.2.1)

/-- The byte after one more bit field is inserted (42_bit_fields.md R125). -/
def insertField (b : Byte) (f : Nat × Nat × Data) : Byte := insertBits b f.1 f.2.1 f.2.2

/-- The byte with one more shifted value in the OR (43_guarantees.md R151). -/
def orField (b : Byte) (f : Nat × Nat × Data) : Byte := b ||| ins f.1 f.2.1 f.2.2

theorem getLsbD_insertField {f : Nat × Nat × Data} (hf : legalPair f.1 f.2.1 = true) {j : Nat}
    (hj : j < 8) (b : Byte) :
    (insertField b f).getLsbD j =
      if covers j f then f.2.2.getLsbD (j - f.1) else b.getLsbD j := by
  obtain ⟨-, hw, -⟩ := legalPair_iff.1 hf
  simp only [insertField, getLsbD_insertBits hw _ _ hj, covers, decide_eq_true_eq]

theorem getLsbD_orField {f : Nat × Nat × Data} (hf : legalPair f.1 f.2.1 = true) {j : Nat}
    (hj : j < 8) (b : Byte) :
    (orField b f).getLsbD j = (b.getLsbD j || (covers j f && f.2.2.getLsbD (j - f.1))) := by
  obtain ⟨-, hw, -⟩ := legalPair_iff.1 hf
  rw [orField, BitVec.getLsbD_or, getLsbD_ins hw, covers, decide_eq_true hj, Bool.true_and,
    Bool.decide_and]

/-- Both ways of composing agree on a bit that no field covers: it is as it was. -/
theorem getLsbD_foldl_of_uncovered {fs : List (Nat × Nat × Data)}
    (hfs : ∀ f ∈ fs, legalPair f.1 f.2.1 = true) {j : Nat} (hj : j < 8)
    (hnone : ∀ f ∈ fs, covers j f = false) (b : Byte) :
    (fs.foldl insertField b).getLsbD j = b.getLsbD j ∧
      (fs.foldl orField b).getLsbD j = b.getLsbD j := by
  induction fs generalizing b with
  | nil => exact ⟨rfl, rfl⟩
  | cons f fs ih =>
    have hf := hfs f (by simp)
    have ih' := ih (fun g hg => hfs g (by simp [hg])) (fun g hg => hnone g (by simp [hg]))
    refine ⟨(ih' _).1.trans ?_, (ih' _).2.trans ?_⟩
    · simp [getLsbD_insertField hf hj, hnone f (by simp)]
    · simp [getLsbD_orField hf hj, hnone f (by simp)]

/-- On a bit that one field covers the inserted fields and the OR agree, whatever the first byte held
and as long as the OR starts clear there: before that field neither changes the bit, it gives both
the bit of its value, after it neither changes the bit. -/
theorem getLsbD_foldl_of_covered_once {fs : List (Nat × Nat × Data)}
    (hfs : ∀ f ∈ fs, legalPair f.1 f.2.1 = true) {j : Nat} (hj : j < 8)
    (honce : (fs.filter (covers j)).length = 1) (b : Byte) {x : Byte} (hx : x.getLsbD j = false) :
    (fs.foldl insertField b).getLsbD j = (fs.foldl orField x).getLsbD j := by
  induction fs generalizing b x with
  | nil => simp at honce
  | cons f fs ih =>
    have hf := hfs f (by simp)
    have hrest : ∀ g ∈ fs, legalPair g.1 g.2.1 = true := fun g hg => hfs g (by simp [hg])
    rw [List.foldl_cons, List.foldl_cons]
    cases hc : covers j f
    · rw [List.filter_cons_of_neg (by simp [hc])] at honce
      exact ih hrest honce _ (by simp [getLsbD_orField hf hj, hc, hx])
    · rw [List.filter_cons_of_pos hc, List.length_cons, Nat.add_eq_right,
        List.length_eq_zero_iff, List.filter_eq_nil_iff] at honce
      have hnone : ∀ g ∈ fs, covers j g = false := fun g hg => Bool.eq_false_iff.2 (honce g hg)
      rw [(getLsbD_foldl_of_uncovered hrest hj hnone _).1,
        (getLsbD_foldl_of_uncovered hrest hj hnone _).2,
        getLsbD_insertField hf hj, getLsbD_orField hf hj]
      simp [hc, hx]

/-- A list of legal `set_bits` to one byte completes, inserts its fields in turn and leaves every
other byte. -/
theorem execAll_setBits {i : Nat} {fs : List (Nat × Nat × Data)} {s : State}
    (hs : s.buf.wf = true) (hi : i < s.cfg.bufLen) (hfs : ∀ f ∈ fs, legalPair f.1 f.2.1 = true) :
    ∃ t : State, execAll (fs.map (fun f => .setBits i f.1 f.2.1 f.2.2)) s = .next t ∧
      t.byteAt i = fs.foldl insertField (s.byteAt i) ∧ ∀ a, a ≠ i → t.byteAt a = s.byteAt a := by
  induction fs generalizing s with
  | nil => exact ⟨s, rfl, rfl, fun _ _ => rfl⟩
  | cons f fs ih =>
    obtain ⟨hw, hw8, how⟩ := legalPair_iff.1 (hfs f (by simp))
    have hdef : Defined s.cfg (.setBits i f.1 f.2.1 f.2.2) := ⟨hw, hw8, how, hi⟩
    obtain ⟨t, ht, hbyte, hother⟩ :=
      ih (s := s.memWrite i [insertField (s.byteAt i) f]) (Memory.wf_writeAll hs _ _) hi
        fun g hg => hfs g (by simp [hg])
    refine ⟨t, ?_, ?_, fun a ha => ?_⟩
    · rw [List.map_cons, execAll_cons hdef, effect_of_write rfl]
      exact ht
    · rw [hbyte, byteAt_memWrite_singleton hs, List.foldl_cons]
    · rw [hother a ha, byteAt_memWrite_singleton_ne hs ha]

end Sys2Proof.Machine

namespace Sys2Proof.Proofs

open Sys2Proof Sys2Proof.Machine

/-- Settles O44: in any order the byte writes leave the bytes of the value in the field and the rest
alone, which in canonical form is the state the wide write leaves. -/
theorem wideWritesAreByteWritesInAnyOrder : Obligations.WideWritesAreByteWritesInAnyOrder := by
  intro N i v s ks hs hi hperm
  have hwf : s.buf.wf = true := ((inv_iff s).1 hs).2.1
  have hmem : ∀ k, k ∈ ks ↔ k < N.bytes := fun k => hperm.mem_iff.trans List.mem_range
  obtain ⟨t, ht, htwf, hcfg, hpending, hresults, hin, hout⟩ :=
    execAll_byteWrites v hs hi fun k hk => (hmem k).1 hk
  refine ⟨_, exec_set_of_le v hi, ht.trans (congrArg _ ?_)⟩
  refine State.ext_bytes htwf (Memory.wf_writeAll hwf _ _) hcfg hpending hresults fun a => ?_
  by_cases ha : i ≤ a ∧ a < i + N.bytes
  · obtain ⟨k, rfl⟩ := Nat.exists_eq_add_of_le ha.1
    have hk : k < N.bytes := by omega
    rw [hin k ((hmem k).2 hk), byteAt_memWrite_inside hwf (by rwa [length_laneBytes]),
      getElem_laneBytes]
  · rw [hout a fun k hk => by have := (hmem k).1 hk; omega,
      byteAt_memWrite_outside hwf (by rw [length_laneBytes]; omega)]

/-- Settles O47: the effects of disjoint writes commute, and so do the insertions of disjoint bit
ranges. -/
theorem disjointWritesCommute : Obligations.DisjointWritesCommute := by
  refine ⟨fun i j s hs hi hj hdi hdj hdisj => ?_,
    fun a o w o' w' u v s hs ha hw how hw' how' hdisj => ?_⟩
  · obtain ⟨-, hwf, -⟩ := (inv_iff s).1 hs
    exact ⟨_, execAll_pair hdi hdj, by rw [execAll_pair hdj hdi, effect_comm hwf hi hj hdisj]⟩
  · obtain ⟨-, hwf, -⟩ := (inv_iff s).1 hs
    refine ⟨_, execAll_setBits_pair hwf ha hw how hw' how' u v, ?_⟩
    rw [execAll_setBits_pair hwf ha hw' how' hw how v u,
      insertBits_insertBits_comm (by omega) (by omega) hdisj]

/-- Settles O48: the fields are inserted in turn, and each bit is set by the one field that covers
it. -/
theorem bitFieldsPackAByte : Obligations.BitFieldsPackAByte := by
  intro i fs s hs hi hfs honce
  obtain ⟨-, hwf, -⟩ := (inv_iff s).1 hs
  obtain ⟨t, ht, hbyte, hother⟩ := execAll_setBits hwf hi hfs
  refine ⟨t, ht, ?_, hother⟩
  have hor : fs.foldl (fun b f => b |||
      ((f.2.2.setWidth 8 &&& BitVec.ofNat 8 (2 ^ f.2.1 - 1)) <<< f.1)) 0#8 =
      fs.foldl orField 0#8 := by
    refine List.foldl_ext _ _ _ fun b f hf => ?_
    rw [orField, ins_eq, mask_eq_ofNat (legalPair_iff.1 (hfs f hf)).2.1]
  rw [hbyte, hor]
  exact BitVec.eq_of_getLsbD_eq fun j hj =>
    getLsbD_foldl_of_covered_once hfs hj (honce j hj) _ (by simp)

/-- Settles O46: bytes stored over as many bytes, and a bit field inserted over itself. -/
theorem lastWriterWins : Obligations.LastWriterWins := by
  refine ⟨fun N i u v s hs hi => ?_, fun i o w u v s hs hw how hi => ?_⟩
  · have hwf : s.buf.wf = true := ((inv_iff s).1 hs).2.1
    have hover : ∀ x, exec (N.set i v) (s.memWrite i (laneBytes N.bytes x)) =
        .next (s.memWrite i (laneBytes N.bytes v)) := fun x => by
      rw [exec_set_of_le (s := s.memWrite i _) v hi, memWrite_memWrite_same hwf _ (by simp)]
    refine ⟨_, exec_set_of_le v hi, ?_, hover v⟩
    rw [execAll, exec_set_of_le u hi]
    simp only [execAll, hover]
  · have hwf : s.buf.wf = true := ((inv_iff s).1 hs).2.1
    have hw8 : w ≤ 8 := by omega
    refine ⟨_, exec_setBits_of_legal v hw how hi, ?_, ?_⟩
    · rw [execAll_setBits_pair hwf hi hw how hw how, insertBits_insertBits_same hw8]
    · rw [exec_setBits_of_legal (s := s.memWrite i _) v hw how hi, byteAt_memWrite_singleton hwf,
        insertBits_insertBits_same hw8, memWrite_memWrite_singleton hwf]

end Sys2Proof.Proofs
end

section
/-! PROOFS. Reads as compositions of narrower reads, reads of what another width wrote, and the
statements of 20_memory.md R35, 42_bit_fields.md R123 and 43_guarantees.md R146 to R148. -/

namespace Sys2Proof.Machine

/-! ### Joined bytes, split -/

/-- Joined bytes are the low ones and, above them, the high ones. -/
theorem joinBytes_append (lo hi : List Byte) :
    joinBytes (lo ++ hi) = (joinBytes hi <<< (8 * lo.length)) ||| joinBytes lo := by
  induction lo with
  | nil => simp [joinBytes]
  | cons b lo ih =>
    rw [List.cons_append, joinBytes, ih, BitVec.shiftLeft_or_distrib, ← BitVec.shiftLeft_add,
      joinBytes, List.length_cons, Nat.mul_succ, ← BitVec.or_assoc, ← BitVec.or_assoc,
      BitVec.or_comm (b.setWidth 64)]

/-- A field is its low part and, from there on, its high part. -/
theorem memRead_add (s : State) (i m n : Nat) :
    s.memRead i (m + n) = s.memRead i m ++ s.memRead (i + m) n := by
  simp [State.memRead, List.range_add, Nat.add_assoc]

/-- A field of `m + n` bytes is the `n` high ones shifted above the `m` low ones (43_guarantees.md
R147). -/
theorem joinBytes_memRead_add (s : State) (i m n : Nat) :
    joinBytes (s.memRead i (m + n)) =
      (joinBytes (s.memRead (i + m) n) <<< (8 * m)) ||| joinBytes (s.memRead i m) := by
  rw [memRead_add, joinBytes_append, length_memRead]

/-- A read in range hands over its bytes joined, and changes nothing else. -/
theorem exec_get_of_le {N : Width} {i : Nat} {s : State} (h : i + N.bytes ≤ s.cfg.bufLen) :
    exec (N.get i) s = .next (s.deliver (joinBytes (s.memRead i N.bytes))) := by
  rw [exec_get, readField_of_le h]

/-! ### Slices of a value -/

/-- Neighbouring bytes of a value are one slice of it. -/
theorem byteSlice_succ_append (v : Data) (k : Nat) :
    byteSlice v (k + 1) ++ byteSlice v k = v.extractLsb' (8 * k) 16 :=
  BitVec.extractLsb'_append_extractLsb'_eq_extractLsb' rfl

/-- A bit field of a byte of a value is a slice of the value. -/
theorem extractBits_byteSlice {o w : Nat} (how : o + w ≤ 8) (v : Data) (k : Nat) :
    extractBits (byteSlice v k) o w = (v.extractLsb' (8 * k + o) w).setWidth 8 := by
  refine BitVec.eq_of_getLsbD_eq fun j hj => ?_
  rw [getLsbD_extractBits (by omega), byteSlice, BitVec.getLsbD_extractLsb', BitVec.getLsbD_setWidth,
    BitVec.getLsbD_extractLsb']
  by_cases hin : j < w
  · simp [hin, hj, show o + j < 8 by omega, Nat.add_assoc]
  · simp [hin]

/-! ### Bit fields as byte accesses -/

/-- The extracted field, computed on the byte as `get_u8` returns it (43_guarantees.md R148). -/
theorem setWidth_extractBits {w : Nat} (hw : w ≤ 8) (b : Byte) (o : Nat) :
    (extractBits b o w).setWidth 64 =
      ((b.setWidth 64 : Data) >>> o) &&& BitVec.ofNat 64 (2 ^ w - 1) := by
  refine BitVec.eq_of_getLsbD_eq fun j hj => ?_
  rw [BitVec.getLsbD_setWidth, getLsbD_extractBits hw, BitVec.getLsbD_and,
    BitVec.getLsbD_ushiftRight, BitVec.getLsbD_setWidth, BitVec.getLsbD_ofNat,
    Nat.testBit_two_pow_sub_one]
  by_cases hlt : o + j < 64
  · simp [hj, hlt, Bool.and_comm]
  · simp [hlt, BitVec.getLsbD_of_ge b (o + j) (by omega)]

/-- The low byte of the value composed on 64 bits is the byte `set_bits` makes (43_guarantees.md
R148). -/
theorem setWidth_composed {w : Nat} (hw : w ≤ 8) (b : Byte) (o : Nat) (v : Data) :
    (((b.setWidth 64 : Data) &&& ~~~ (BitVec.ofNat 64 (2 ^ w - 1) <<< o)) |||
      ((v &&& BitVec.ofNat 64 (2 ^ w - 1)) <<< o)).setWidth 8 = insertBits b o w v := by
  rw [insertBits_eq hw, BitVec.setWidth_or, BitVec.setWidth_and, BitVec.setWidth_not (by decide),
    BitVec.setWidth_shiftLeft_of_le (by decide), BitVec.setWidth_shiftLeft_of_le (by decide),
    BitVec.setWidth_and, BitVec.setWidth_setWidth_of_le _ (by decide), BitVec.setWidth_eq]
  have hmask : (BitVec.ofNat 64 (2 ^ w - 1)).setWidth 8 = BitVec.ofNat 8 (2 ^ w - 1) :=
    BitVec.setWidth_ofNat_of_le (by decide) _
  rw [hmask]

/-- `set_u8` in range stores the low byte of its value. -/
theorem exec_setU8_of_lt {i : Nat} {s : State} (v : Data) (h : i < s.cfg.bufLen) :
    exec (.setU8 i v) s = .next (s.memWrite i [v.setWidth 8]) := by
  have hbyte : laneBytes 1 v = [v.setWidth 8] :=
    congrArg (fun b => [b]) (BitVec.setWidth_eq_extractLsb' (by decide)).symm
  rw [← hbyte]
  exact exec_set_of_le (N := .n8) v h

end Sys2Proof.Machine

namespace Sys2Proof.Proofs

open Sys2Proof Sys2Proof.Machine

/-- Settles O42: a read's result depends on the buffer alone, which it leaves. -/
theorem readsArePure : Obligations.ReadsArePure := by
  intro i s h hi
  obtain ⟨r, hr⟩ := newResults_of_read h s
  have hagain : newResults i (s.deliver r) = [r] :=
    (newResults_congr (s := s.deliver r) (t := s) fun _ _ _ => rfl).trans hr
  have hfirst : effect i s = s.deliver r := effect_of_read h hr
  refine ⟨r, by rw [exec_of_defined hi, hfirst]; rfl, ?_⟩
  rw [execAll_pair hi hi, hfirst, effect_of_read h hagain]
  simp [State.deliver]

/-- Settles O43: the joined field as an OR of its bytes, and split in halves. -/
theorem wideReadsAreCompositions : Obligations.WideReadsAreCompositions := by
  refine ⟨fun N i s hi => ⟨fun k => (s.byteAt (i + k)).setWidth 64,
    fun k hk => exec_getU8_of_lt (by omega), ?_⟩, fun i s hi => ?_, fun i s hi => ?_⟩
  · rw [exec_get_of_le hi, joinBytes_memRead_eq_or]
    rfl
  · refine ⟨_, _, exec_get_of_le (N := .n16) (by simp only [Width.bytes]; omega),
      exec_get_of_le (N := .n16) (by simp only [Width.bytes]; omega), ?_⟩
    exact (exec_get_of_le (N := .n32) hi).trans
      (congrArg (fun r => Host.Outcome.next (s.deliver r)) (joinBytes_memRead_add s i 2 2))
  · refine ⟨_, _, exec_get_of_le (N := .n32) (by simp only [Width.bytes]; omega),
      exec_get_of_le (N := .n32) (by simp only [Width.bytes]; omega), ?_⟩
    exact (exec_get_of_le (N := .n64) hi).trans
      (congrArg (fun r => Host.Outcome.next (s.deliver r)) (joinBytes_memRead_add s i 4 4))

/-- Settles O45: both bit-field formulas on the byte `get_u8` returns. -/
theorem bitFieldsAreCompositionsOfByteAccesses :
    Obligations.BitFieldsAreCompositionsOfByteAccesses := by
  intro i o w v s hw how hi
  have hw8 : w ≤ 8 := by omega
  refine ⟨_, exec_getU8_of_lt hi, ?_, ?_⟩
  · rw [exec_getBits_of_legal hw how hi, setWidth_extractBits hw8]
    rfl
  · rw [exec_setBits_of_legal v hw how hi, exec_setU8_of_lt _ hi, setWidth_composed hw8]

/-- Settles O35: the four bytes written, read one at a time, two across the middle, and in part. -/
theorem otherWidthsSeeTheBytesWritten : Obligations.OtherWidthsSeeTheBytesWritten := by
  intro i v s hs hi
  obtain ⟨t, ht, hcfg, -, -, hbyte, -⟩ := writeField_stores v hs hi
  rw [← hcfg] at hi
  refine ⟨t, ht, fun k hk => ?_, ?_, fun o w hw how => ?_⟩
  · rw [exec_getU8_of_lt (by omega), hbyte k hk]
    rfl
  · refine (exec_get_of_le (N := .n16) (by simp only [Width.bytes]; omega)).trans ?_
    change Host.Outcome.next (t.deliver (joinBytes (t.memRead (i + 1) 2))) = _
    rw [joinBytes_memRead_two, hbyte 2 (by decide), hbyte 1 (by decide), byteSlice_succ_append]
    rfl
  · rw [exec_getBits_of_legal hw how (by omega), hbyte 2 (by decide), extractBits_byteSlice how,
      BitVec.setWidth_setWidth (by omega)]
    rfl

/-- Settles O25: the pattern's number and its bits; the pairs are counted. -/
theorem selectPatternCoversTheField : Obligations.SelectPatternCoversTheField := by
  refine ⟨fun o w hw how => ⟨?_, fun j hj => ?_⟩, by decide⟩
  · have hfit : (2 ^ w - 1) * 2 ^ o < 2 ^ 8 :=
      calc (2 ^ w - 1) * 2 ^ o
          < 2 ^ w * 2 ^ o := Nat.mul_lt_mul_of_pos_right (by simp) (Nat.two_pow_pos o)
        _ = 2 ^ (w + o) := (Nat.pow_add 2 w o).symm
        _ ≤ 2 ^ 8 := Nat.pow_le_pow_right (by decide) (by omega)
    rw [sel, BitVec.toNat_shiftLeft, toNat_mask (by omega), Nat.shiftLeft_eq,
      Nat.mod_eq_of_lt hfit]
  · rw [getLsbD_sel (by omega), decide_eq_true hj, Bool.true_and, Bool.decide_and]

end Sys2Proof.Proofs
end

section
/-! PROOFS. The lanes of a defined command and what the buffer holds after them, and the statements
of 44_blocks.md and 42_bit_fields.md R127 on the lane port. -/

namespace Sys2Proof.Machine

/-! ### The opcode's signals, operation by operation -/

/-- The fields of a decoded operation hold its opcode and its index. -/
theorem opcode_index_of_toInstr {x : Fields} {v : Data} {i : Instr} (h : x.toInstr v = .ok i) :
    x.op = i.opcode ∧ x.idx.toNat = index i := by
  rcases toInstr_cases x v with
    ⟨hop, hi⟩ | ⟨hop, hi⟩ | ⟨hop, hi⟩ | ⟨hop, hi⟩ | ⟨hop, hi⟩ | ⟨hop, hi⟩ | ⟨hop, hi⟩ | ⟨hop, hi⟩ |
    ⟨hop, hi⟩ | ⟨hop, hi⟩ | ⟨-, hi⟩ <;>
    cases hi.symm.trans h <;> exact ⟨hop, rfl⟩

/-- A decoded operation reads or writes a whole-byte field of one of the widths or a bit field, with
the operands its fields hold (30_encoding.md R65). -/
theorem toInstr_forms {x : Fields} {v : Data} {i : Instr} (h : x.toInstr v = .ok i) :
    (∃ N : Width, i = N.get x.idx.toNat) ∨ (∃ N : Width, i = N.set x.idx.toNat v) ∨
      i = .getBits x.idx.toNat x.bitOff.toNat x.bitW.toNat ∨
      i = .setBits x.idx.toNat x.bitOff.toNat x.bitW.toNat v := by
  rcases toInstr_cases x v with
    ⟨-, hi⟩ | ⟨-, hi⟩ | ⟨-, hi⟩ | ⟨-, hi⟩ | ⟨-, hi⟩ | ⟨-, hi⟩ | ⟨-, hi⟩ | ⟨-, hi⟩ | ⟨-, hi⟩ |
    ⟨-, hi⟩ | ⟨-, hi⟩ <;>
    cases hi.symm.trans h
  · exact .inl ⟨.n8, rfl⟩
  · exact .inl ⟨.n16, rfl⟩
  · exact .inl ⟨.n32, rfl⟩
  · exact .inl ⟨.n64, rfl⟩
  · exact .inr (.inr (.inl rfl))
  · exact .inr (.inl ⟨.n8, rfl⟩)
  · exact .inr (.inl ⟨.n16, rfl⟩)
  · exact .inr (.inl ⟨.n32, rfl⟩)
  · exact .inr (.inl ⟨.n64, rfl⟩)
  · exact .inr (.inr (.inr rfl))

theorem decoder_isWrite (i : Instr) : (commandDecoder true i.opcode).isWrite = isWrite i := by
  cases i <;> simp only [Instr.opcode, isWrite] <;> decide

theorem decoder_n (i : Instr) : (commandDecoder true i.opcode).n = accessBytes i := by
  cases i <;> simp only [Instr.opcode, accessBytes] <;> decide

theorem decoder_active (i : Instr) : (commandDecoder true i.opcode).active = true := by
  cases i <;> simp only [Instr.opcode] <;> decide

/-- A lane is read-enabled where it is one of the field's and the operation reads (20_memory.md
R42). -/
theorem laneRe_opcode (i : Instr) (k : Nat) :
    laneRe (commandDecoder true i.opcode) k = (decide (k < accessBytes i) && readsBytes i) := by
  have hreads : (!isWrite i || (commandDecoder true i.opcode).isBits) = readsBytes i := by
    cases i <;> simp only [Instr.opcode, isWrite, readsBytes] <;> decide
  rw [laneRe, decoder_active, decoder_n, decoder_isWrite, Bool.true_and, hreads]

/-- A lane is write-enabled where it is one of the field's and the operation writes (20_memory.md
R42). -/
theorem laneWe_opcode (i : Instr) (k : Nat) :
    laneWe (commandDecoder true i.opcode) k = (decide (k < accessBytes i) && isWrite i) := by
  rw [laneWe, decoder_active, decoder_n, decoder_isWrite, Bool.true_and, Bool.and_comm]

theorem accessBytes_pos (i : Instr) : 0 < accessBytes i := by cases i <;> simp [accessBytes]

theorem accessBytes_le (i : Instr) : accessBytes i ≤ 8 := by cases i <;> simp [accessBytes]

/-! ### The driven ports, signal by signal -/

section Driven

variable {idxW : Nat} (f : Free idxW) (p : CommandPorts idxW) (buf : Memory)

/-- The byte on `lane_rdata[k]`: the buffer's on a read-enabled lane, nothing known on another
(20_memory.md R41). -/
def presentedByte (k : Nat) : Byte :=
  if laneRe (commandDecoder p.valid p.op) k then buf.read (laneAddr f p.idx k).toNat
  else f.laneRdata k

/-- The outputs of the multiplexer on what the command port and lane 0 present (44_blocks.md R164). -/
def multiplexed : MuxOut :=
  subByteMultiplexer f p.bitW (presentedByte f p buf 0) p.bitOff (bitExtractMask f p.bitW)
    (p.wdata.setWidth 8)

/-- What is driven on lane `k` (44_blocks.md R170 to R176). -/
def drivenLane (k : Nat) : Lane idxW :=
  { addr  := if p.valid then laneAddr f p.idx k else f.laneAddr k
    re    := laneRe (commandDecoder p.valid p.op) k
    we    := laneWe (commandDecoder p.valid p.op) k
    wdata := if p.valid then
        laneWdata (commandDecoder p.valid p.op) (multiplexed f p buf).merged p.wdata k
      else f.laneWdata k }

theorem drivenPorts_lanes :
    (drivenPorts f p buf).lanes = (List.range 8).map (drivenLane f p buf) := rfl

theorem drivenPorts_rdata :
    (drivenPorts f p buf).rdata = resultMux f (commandDecoder p.valid p.op)
      (multiplexed f p buf).ext
      (littleEndianReconstructor (presentedByte f p buf) (commandDecoder p.valid p.op).n) := rfl

theorem map_re_drivenPorts : (drivenPorts f p buf).lanes.map Lane.re =
    (List.range 8).map (laneRe (commandDecoder p.valid p.op)) := rfl

theorem map_we_drivenPorts : (drivenPorts f p buf).lanes.map Lane.we =
    (List.range 8).map (laneWe (commandDecoder p.valid p.op)) := rfl

/-- The eight lanes are the driven ones. -/
theorem getElem?_drivenPorts_lanes {k : Nat} (hk : k < 8) :
    (drivenPorts f p buf).lanes[k]? = some (drivenLane f p buf k) := by
  simp [drivenPorts_lanes, hk]

theorem lt_of_getElem?_drivenPorts_lanes {k : Nat} {l : Lane idxW}
    (h : (drivenPorts f p buf).lanes[k]? = some l) : k < 8 := by
  simpa [drivenPorts_lanes] using (List.getElem?_eq_some_iff.1 h).1

end Driven

/-- Lanes that write nothing leave the buffer. -/
theorem commitLanes_of_no_write {idxW : Nat} {lanes : List (Lane idxW)}
    (h : ∀ l ∈ lanes, l.we = false) (buf : Memory) : commitLanes buf lanes = buf := by
  induction lanes with
  | nil => rfl
  | cons l ls ih =>
    have hskip : commitLanes buf (l :: ls) = commitLanes buf ls := by
      simp [commitLanes, h l (by simp)]
    rw [hskip, ih fun l' hl => h l' (by simp [hl])]

/-- Bytes stored at the end of others come after them. -/
theorem Memory.writeAll_concat (m : Memory) (a : Nat) (bs : List Byte) (b : Byte) :
    m.writeAll a (bs ++ [b]) = (m.writeAll a bs).write (a + bs.length) b := by
  induction bs generalizing m a with
  | nil => rfl
  | cons c bs ih =>
    rw [List.cons_append, Memory.writeAll, ih, List.length_cons, Memory.writeAll, Nat.add_assoc,
      Nat.add_comm 1]

/-- Lanes that carry bytes at consecutive addresses, one after another, store them as one write
(20_memory.md R41). -/
theorem commitLanes_map_range {idxW : Nat} {lane : Nat → Lane idxW} {a : Nat} {bs : List Byte}
    (hwe : ∀ k, (lane k).we = decide (k < bs.length))
    (hlane : ∀ k, (hk : k < bs.length) → (lane k).addr.toNat = a + k ∧ (lane k).wdata = bs[k])
    (buf : Memory) (m : Nat) :
    commitLanes buf ((List.range m).map lane) = buf.writeAll a (bs.take m) := by
  induction m with
  | zero => rfl
  | succ m ih =>
    have hlast : commitLanes buf ((List.range (m + 1)).map lane) =
        if (lane m).we then (buf.writeAll a (bs.take m)).write (lane m).addr.toNat (lane m).wdata
        else buf.writeAll a (bs.take m) := by
      rw [← ih]
      simp [commitLanes, List.range_succ]
    rw [hlast, hwe]
    by_cases hm : m < bs.length
    · obtain ⟨haddr, hbyte⟩ := hlane m hm
      rw [if_pos (decide_eq_true hm), haddr, hbyte, ← List.take_append_getElem hm,
        Memory.writeAll_concat, List.length_take, Nat.min_eq_left hm.le]
    · rw [if_neg (by simpa using hm), List.take_of_length_le (by omega),
        List.take_of_length_le (by omega)]

/-! ### A defined command on the ports -/

theorem legal_iff (c : Cfg) :
    c.legal = true ↔ 1 ≤ c.idxW ∧ c.idxW ≤ 20 ∧ c.bufLen ≤ 2 ^ c.idxW := by
  simp [Cfg.legal, and_assoc]

/-- A smaller index passes the checks a larger one passes. -/
theorem verdict_eq_none_of_le {cfg : Cfg} {op bitW : BitVec 4} {bitOff : BitVec 3} {i i' : Nat}
    (hle : i' ≤ i) (h : verdict cfg op bitW bitOff i = none) :
    verdict cfg op bitW bitOff i' = none := by
  have hin := inRange_of_verdict h
  simp only [verdict] at h ⊢
  split_ifs at h ⊢
  · omega
  · rfl

/-- What is defined in its packed form is defined on the port. -/
theorem portVerdict_of_packedVerdict {cfg : Cfg} {x : Fields} (h : packedVerdict cfg x = none)
    (v : Data) : portVerdict cfg (onPorts x cfg.idxW v) = none := by
  refine verdict_eq_none_of_le (i := x.idx.toNat) ?_ h
  simpa [onPorts] using Nat.mod_le _ _

/-- The fields of a well-formed operation select it. -/
theorem toInstr_fields {i : Instr} (h : i.wf = true) : i.fields.toInstr i.value = .ok i :=
  (decode_encodeFields _ _).symm.trans (Proofs.decodeOfEncodeIsTheOperation i h)

/-- A well-formed defined operation on the ports drives what the formulas give. -/
theorem accessorPorts_fields {cfg : Cfg} {i : Instr} (hwf : i.wf = true) (hdef : Defined cfg i)
    (f : Free cfg.idxW) (v : Data) (m : Memory) :
    accessorPorts cfg f (onPorts i.fields cfg.idxW v) m =
      drivenPorts f (onPorts i.fields cfg.idxW v) m := by
  have hv := (packedVerdict_eq_none_iff cfg i.fields i.value).2 ⟨i, toInstr_fields hwf, hdef⟩
  exact accessorPorts_of_defined (portVerdict_of_packedVerdict hv v) f m

/-- The read enables of a well-formed defined operation (20_memory.md R42). -/
theorem map_re_accessorPorts {cfg : Cfg} {i : Instr} (hwf : i.wf = true) (hdef : Defined cfg i)
    (f : Free cfg.idxW) (v : Data) (m : Memory) :
    (accessorPorts cfg f (onPorts i.fields cfg.idxW v) m).lanes.map Lane.re =
      (List.range 8).map (fun k => decide (k < accessBytes i) && readsBytes i) := by
  have hop : (onPorts i.fields cfg.idxW v).op = i.opcode :=
    (opcode_index_of_toInstr (toInstr_fields hwf)).1
  rw [accessorPorts_fields hwf hdef, map_re_drivenPorts, hop]
  exact List.map_congr_left fun k _ => laneRe_opcode i k

/-- The write enables of a well-formed defined operation (20_memory.md R42). -/
theorem map_we_accessorPorts {cfg : Cfg} {i : Instr} (hwf : i.wf = true) (hdef : Defined cfg i)
    (f : Free cfg.idxW) (v : Data) (m : Memory) :
    (accessorPorts cfg f (onPorts i.fields cfg.idxW v) m).lanes.map Lane.we =
      (List.range 8).map (fun k => decide (k < accessBytes i) && isWrite i) := by
  have hop : (onPorts i.fields cfg.idxW v).op = i.opcode :=
    (opcode_index_of_toInstr (toInstr_fields hwf)).1
  rw [accessorPorts_fields hwf hdef, map_we_drivenPorts, hop]
  exact List.map_congr_left fun k _ => laneWe_opcode i k

/-- In a legal configuration every byte of a defined operation's field has an index the index port
can carry. -/
theorem index_add_lt {cfg : Cfg} {i : Instr} (hc : cfg.legal = true) (hdef : Defined cfg i) {k : Nat}
    (hk : k < accessBytes i) : index i + k < 2 ^ cfg.idxW := by
  obtain ⟨-, -, hlen⟩ := (legal_iff cfg).1 hc
  have := hdef.field_le
  omega

/-- A lane of a defined command carries its byte's index where that fits the lane port. -/
theorem laneAddr_onPorts {cfg : Cfg} {x : Fields} {i : Instr} (hc : cfg.legal = true)
    (hdef : Defined cfg i) (hidx : x.idx.toNat = index i) (f : Free cfg.idxW) (v : Data) {k : Nat}
    (hk : index i + k < 2 ^ (cfg.idxW + 1)) :
    (laneAddr f (onPorts x cfg.idxW v).idx k).toNat = index i + k := by
  have hfit : x.idx.toNat < 2 ^ cfg.idxW := hidx ▸ index_add_lt hc hdef (accessBytes_pos i)
  have hport : (onPorts x cfg.idxW v).idx.toNat = index i := (onPorts_idx_toNat hfit v).trans hidx
  rw [laneAddr_toNat (by rwa [hport]), hport]

/-! ### The multiplexer on a legal pair -/

/-- For a legal pair the multiplexer extracts and composes as the operations do (44_blocks.md R164,
R178). -/
theorem subByteMultiplexer_of_legal {idxW : Nat} (f : Free idxW) {w : BitVec 4} {o : BitVec 3}
    (hw : 1 ≤ w.toNat) (how : o.toNat + w.toNat ≤ 8) (old : Byte) (v : Data) :
    subByteMultiplexer f w old o (mask w.toNat) (v.setWidth 8) =
      { ext := extractBits old o.toNat w.toNat, merged := insertBits old o.toNat w.toNat v } := by
  rw [subByteMultiplexer, if_pos (legalPair_iff.2 ⟨hw, by omega, how⟩), insertBits, ins_eq]
  rfl

/-- A bit of the merged byte is the inserted one where the select pattern is set, and the old one
elsewhere (44_blocks.md R164). -/
theorem getLsbD_merged {idxW : Nat} (f : Free idxW) {w : BitVec 4} {o : BitVec 3}
    (hw : 1 ≤ w.toNat) (how : o.toNat + w.toNat ≤ 8) (old m vin : Byte) {j : Nat} (hj : j < 8) :
    (subByteMultiplexer f w old o m vin).merged.getLsbD j =
      if (m <<< o.toNat).getLsbD j then ((vin &&& m) <<< o.toNat).getLsbD j
      else old.getLsbD j := by
  rw [subByteMultiplexer, if_pos (legalPair_iff.2 ⟨hw, by omega, how⟩)]
  rw [BitVec.getLsbD_or, BitVec.getLsbD_and, BitVec.getLsbD_not, BitVec.shiftLeft_and_distrib,
    BitVec.getLsbD_and, decide_eq_true hj, Bool.true_and]
  cases (m <<< o.toNat).getLsbD j <;> simp

/-! ### A bit field of width 8 -/

/-- The field of width 8 is the byte (42_bit_fields.md R127). -/
theorem extractBits_eight (b : Byte) : extractBits b 0 8 = b := by
  rw [extractBits_eq_extractLsb' (by decide), BitVec.extractLsb'_eq_self, BitVec.setWidth_eq]

/-- Inserting a field of width 8 leaves the low byte of the value (42_bit_fields.md R127). -/
theorem insertBits_eight (old : Byte) (v : Data) : [insertBits old 0 8 v] = laneBytes 1 v := by
  refine congrArg (fun b => [b]) (BitVec.eq_of_getLsbD_eq fun j hj => ?_)
  rw [getLsbD_insertBits (by decide) _ _ hj, if_pos (by omega)]
  simp [byteSlice, hj]

end Sys2Proof.Machine

namespace Sys2Proof.Proofs

open Sys2Proof Sys2Proof.Machine

/-- Settles O29: a width of 8 takes the whole byte, and the opcodes' read enables differ. -/
theorem widthEightIsTheWholeByte : Obligations.WidthEightIsTheWholeByte := by
  have hpre : ∀ i s, bitPre (State.cfg s) i 0 8 = rangePre s.cfg i 1 := fun i s =>
    bitPre_of_legal s.cfg i (by decide) (by decide)
  refine ⟨fun i s => ?_, fun i v s => ?_, fun cfg f i v m hi hlt => ⟨?_, ?_⟩⟩
  · change execGetBits i 0 8 s = readField 1 i s
    rw [execGetBits, readField, hpre, extractBits_eight, joinBytes_memRead_one]
  · change execSetBits i 0 8 v s = writeField 1 i v s
    rw [execSetBits, writeField, hpre, insertBits_eight]
  · have hwf : (Instr.setBits i 0 8 v).wf = true :=
      fitsBitField_iff.2 ⟨hi, by decide, by decide⟩
    rw [map_re_accessorPorts hwf ⟨by decide, by decide, by decide, hlt⟩]
    rfl
  · rw [map_re_accessorPorts (i := .setU8 i v) (decide_eq_true hi) hlt]
    rfl

/-- Settles O50: the opcode's enables and the lane address formula. -/
theorem lanesOfEveryOperation : Obligations.LanesOfEveryOperation := by
  intro cfg f i v m hc hwf hdef
  obtain ⟨-, hidx⟩ := opcode_index_of_toInstr (toInstr_fields hwf)
  refine ⟨map_re_accessorPorts hwf hdef f v m, map_we_accessorPorts hwf hdef f v m,
    fun k hk hlane => ?_⟩
  have hfirst := index_add_lt hc hdef (accessBytes_pos i)
  have hfit : index i + k < 2 ^ (cfg.idxW + 1) := by
    rw [Nat.pow_succ]
    rcases hlane with hin | hwide
    · have := index_add_lt hc hdef hin
      omega
    · have : 2 ^ 3 ≤ 2 ^ cfg.idxW := Nat.pow_le_pow_right (by decide) hwide
      omega
  rw [accessorPorts_fields hwf hdef, List.getElem?_map, getElem?_drivenPorts_lanes _ _ _ hk]
  exact congrArg some (laneAddr_onPorts hc hdef hidx f v hfit)

/-- Settles O51: an inactive decoder enables no lane. -/
theorem idleEnablesNoLane : Obligations.IdleEnablesNoLane := by
  intro cfg f p m hp
  rw [accessorPorts_of_idle hp]
  have hinactive : (commandDecoder p.valid p.op).active = false := by rw [hp]; rfl
  have hlanes : ∀ l ∈ (drivenPorts f p m).lanes, l.re = false ∧ l.we = false := by
    intro l hl
    obtain ⟨k, -, rfl⟩ := List.mem_map.1 hl
    simp [laneRe, laneWe, hinactive]
  exact ⟨hlanes, commitLanes_of_no_write (fun l hl => (hlanes l hl).2) m⟩

/-- Settles O52: an enabled lane is one of the field's, which lies in the buffer. -/
theorem enabledLanesAddressTheBuffer : Obligations.EnabledLanesAddressTheBuffer := by
  intro cfg f p m hc hp hv k l hl hen
  rw [accessorPorts_of_defined hv] at hl
  have hk8 := lt_of_getElem?_drivenPorts_lanes f p m hl
  obtain rfl := Option.some.inj ((getElem?_drivenPorts_lanes f p m hk8).symm.trans hl)
  have hk : k < (commandDecoder p.valid p.op).n := by
    simp only [drivenLane, laneRe, laneWe, Bool.and_eq_true, decide_eq_true_eq] at hen
    rcases hen with ⟨⟨-, hk⟩, -⟩ | ⟨-, hk⟩ <;> exact hk
  obtain ⟨-, -, hlen⟩ := (legal_iff cfg).1 hc
  have hin := inRange_of_verdict hv
  rw [hp] at hk
  have hfit : p.idx.toNat + k < 2 ^ (cfg.idxW + 1) := by
    rw [Nat.pow_succ]
    omega
  refine ⟨?_, by omega, hfit⟩
  rw [drivenLane, hp, if_pos rfl, laneAddr_toNat hfit]

/-- Settles O58: an index the port carries is carried whole, and a larger one is out of range. -/
theorem indexPortCarriesEveryDefinedIndex : Obligations.IndexPortCarriesEveryDefinedIndex := by
  refine fun cfg c hc => ⟨fun h => onPorts_idx_toNat h c.wdata, fun hbig hdef => ?_⟩
  have hv := (packedVerdict_eq_none_iff cfg (decodeFields c.ctl) c.wdata).2 hdef
  exact absurd (idx_lt_of_packedVerdict hc hv) (not_lt.2 hbig)

/-- Settles O54: the multiplexer's byte bit by bit, and as what the operations hand over and store. -/
theorem subByteMultiplexerBlock : Obligations.SubByteMultiplexerBlock := by
  refine ⟨fun idxW f w old vin o hw how => ⟨?_, fun j hj => getLsbD_merged f hw how old _ vin hj⟩,
    fun idxW f w i o v s hs hw how hi => ⟨?_, ?_⟩, fun idxW f w old m vin o h => ?_⟩
  · rw [subByteMultiplexer, if_pos (legalPair_iff.2 ⟨hw, by omega, how⟩)]
  · rw [exec_getBits_of_legal hw how hi, subByteMultiplexer_of_legal f hw how]
    rfl
  · obtain ⟨t, ht, -, hbyte, -⟩ := exec_setBits_stores v hs hw how hi
    exact ⟨t, ht, by rw [hbyte, subByteMultiplexer_of_legal f hw how]⟩
  · rw [subByteMultiplexer, if_neg (by rw [legalPair_iff]; omega)]

end Sys2Proof.Proofs
end

section
/-! PROOFS. One step through the blocks is one step of the machine (44_blocks.md R178). -/

namespace Sys2Proof.Machine

/-! ### Whole-byte operations by their width -/

theorem newResults_get (N : Width) (i : Nat) (s : State) :
    newResults (N.get i) s = [joinBytes (s.memRead i N.bytes)] := by
  cases N <;> rfl

theorem storedBytes_set (N : Width) (i : Nat) (v : Data) (s : State) :
    storedBytes (N.set i v) s = laneBytes N.bytes v := by
  cases N <;> rfl

theorem accessBytes_get (N : Width) (i : Nat) : accessBytes (N.get i) = N.bytes := by
  cases N <;> rfl

theorem index_get (N : Width) (i : Nat) : index (N.get i) = i := by
  cases N <;> rfl

theorem isWrite_get (N : Width) (i : Nat) : isWrite (N.get i) = false := by
  cases N <;> rfl

theorem isWrite_set (N : Width) (i : Nat) (v : Data) : isWrite (N.set i v) = true := by
  cases N <;> rfl

theorem readsBytes_of_read {i : Instr} (h : isWrite i = false) : readsBytes i = true := by
  cases i
  iterate 5 rfl
  iterate 5 cases h

theorem decoder_isBits_get (N : Width) (i : Nat) :
    (commandDecoder true (N.get i).opcode).isBits = false := by
  cases N <;> simp only [Width.get, Instr.opcode] <;> decide

theorem decoder_isBits_set (N : Width) (i : Nat) (v : Data) :
    (commandDecoder true (N.set i v).opcode).isBits = false := by
  cases N <;> simp only [Width.set, Instr.opcode] <;> decide

theorem decoder_isBits_getBits (i o w : Nat) :
    (commandDecoder true (Instr.getBits i o w).opcode).isBits = true := by
  simp only [Instr.opcode]
  decide

theorem decoder_isBits_setBits (i o w : Nat) (v : Data) :
    (commandDecoder true (Instr.setBits i o w v).opcode).isBits = true := by
  simp only [Instr.opcode]
  decide

/-- The result of a read passes the result multiplexer (44_blocks.md R168). -/
theorem resultMux_of_read {idxW : Nat} (f : Free idxW) {i : Instr} (h : isWrite i = false)
    (ext : Byte) (value : Data) :
    resultMux f (commandDecoder true i.opcode) ext value =
      if (commandDecoder true i.opcode).isBits then ext.setWidth 64 else value := by
  rw [resultMux, decoder_active, decoder_isWrite, h]
  rfl

/-! ### A decoded, defined operation through the blocks -/

section OnPorts

variable {s : State} {x : Fields} {v : Data} {i : Instr} (f : Free s.cfg.idxW)
variable (hc : s.cfg.legal = true) (hx : x.toInstr v = .ok i) (hdef : Defined s.cfg i)
include hc hx hdef

/-- The address of a lane of the field, which fits the lane port (20_memory.md R39). -/
theorem laneAddr_of_lt_accessBytes {k : Nat} (hk : k < accessBytes i) :
    (laneAddr f (onPorts x s.cfg.idxW v).idx k).toNat = index i + k := by
  have hlt := index_add_lt hc hdef hk
  exact laneAddr_onPorts hc hdef (opcode_index_of_toInstr hx).2 f v (by rw [Nat.pow_succ]; omega)

/-- A read-enabled lane presents the byte of the buffer at its place in the field. -/
theorem presentedByte_onPorts (hreads : readsBytes i = true) {k : Nat} (hk : k < accessBytes i) :
    presentedByte f (onPorts x s.cfg.idxW v) s.buf k = s.byteAt (index i + k) := by
  have hop : (onPorts x s.cfg.idxW v).op = i.opcode := (opcode_index_of_toInstr hx).1
  have hvalid : (onPorts x s.cfg.idxW v).valid = true := rfl
  have hre : laneRe (commandDecoder true i.opcode) k = true := by
    rw [laneRe_opcode, hreads, decide_eq_true hk]
    rfl
  rw [presentedByte, hvalid, hop, if_pos hre, laneAddr_of_lt_accessBytes f hc hx hdef hk]
  rfl

/-- The multiplexer extracts from the byte at the operation's index and composes onto it
(44_blocks.md R164). -/
theorem multiplexed_onPorts (hreads : readsBytes i = true) (hw : 1 ≤ x.bitW.toNat)
    (how : x.bitOff.toNat + x.bitW.toNat ≤ 8) :
    multiplexed f (onPorts x s.cfg.idxW v) s.buf =
      { ext := extractBits (s.byteAt (index i)) x.bitOff.toNat x.bitW.toNat
        merged := insertBits (s.byteAt (index i)) x.bitOff.toNat x.bitW.toNat v } := by
  have hmask : bitExtractMask f x.bitW = mask x.bitW.toNat := if_pos ⟨hw, by omega⟩
  have hmux := subByteMultiplexer_of_legal f hw how (s.byteAt (index i)) v
  rw [multiplexed, presentedByte_onPorts f hc hx hdef hreads (accessBytes_pos i), Nat.add_zero]
  simpa only [onPorts, hmask] using hmux

/-- What the response port carries in a read is the result the read hands over (44_blocks.md R166,
R168). -/
theorem rdata_onPorts (hread : isWrite i = false) :
    newResults i s = [(drivenPorts f (onPorts x s.cfg.idxW v) s.buf).rdata] := by
  have hop : (onPorts x s.cfg.idxW v).op = i.opcode := (opcode_index_of_toInstr hx).1
  have hvalid : (onPorts x s.cfg.idxW v).valid = true := rfl
  have hreads := readsBytes_of_read hread
  rw [drivenPorts_rdata, hvalid, hop, resultMux_of_read f hread, decoder_n]
  rcases toInstr_forms hx with ⟨N, hi⟩ | ⟨N, hi⟩ | hi | hi
  · have hbits : (commandDecoder true i.opcode).isBits = false := hi ▸ decoder_isBits_get N _
    have hjoin : littleEndianReconstructor (presentedByte f (onPorts x s.cfg.idxW v) s.buf)
        (accessBytes i) = joinBytes (s.memRead (index i) (accessBytes i)) := by
      rw [← littleEndianReconstructor_eq_joinBytes]
      exact Proofs.littleEndianReconstructorBlock.2.1 _ _ _ fun k hk =>
        presentedByte_onPorts f hc hx hdef hreads hk
    rw [hbits, hjoin, hi, newResults_get, index_get, accessBytes_get]
    rfl
  · rw [hi, isWrite_set] at hread
    cases hread
  · subst hi
    have ⟨hw, _, how, _⟩ := hdef
    rw [multiplexed_onPorts f hc hx hdef hreads hw how, decoder_isBits_getBits]
    rfl
  · subst hi
    cases hread

/-- What a write-enabled lane carries is the byte the write stores there (44_blocks.md R170). -/
theorem laneWdata_onPorts (hwrite : isWrite i = true) {k : Nat}
    (hk : k < (storedBytes i s).length) :
    laneWdata (commandDecoder true i.opcode)
      (multiplexed f (onPorts x s.cfg.idxW v) s.buf).merged v k = (storedBytes i s)[k] := by
  rcases toInstr_forms hx with ⟨N, rfl⟩ | ⟨N, rfl⟩ | rfl | rfl
  · rw [isWrite_get] at hwrite
    cases hwrite
  · simp only [storedBytes_set, getElem_laneBytes, laneWdata, decoder_isBits_set, Bool.false_and]
    rfl
  · cases hwrite
  · have ⟨hw, _, how, _⟩ := hdef
    rw [multiplexed_onPorts f hc hx hdef rfl hw how, laneWdata, decoder_isBits_setBits]
    obtain rfl : k = 0 := Nat.lt_one_iff.1 hk
    rfl

/-- The write-enabled lanes store what the operation stores (20_memory.md R41). -/
theorem commitLanes_onPorts :
    commitLanes s.buf (drivenPorts f (onPorts x s.cfg.idxW v) s.buf).lanes =
      s.buf.writeAll (index i) (storedBytes i s) := by
  have hop : (onPorts x s.cfg.idxW v).op = i.opcode := (opcode_index_of_toInstr hx).1
  have hwe : ∀ k, (drivenLane f (onPorts x s.cfg.idxW v) s.buf k).we =
      decide (k < (storedBytes i s).length) := fun k => by
    change laneWe (commandDecoder true (onPorts x s.cfg.idxW v).op) k = _
    rw [hop, laneWe_opcode]
    cases hwrite : isWrite i
    · simp [storedBytes_of_read hwrite]
    · rw [length_storedBytes_of_write hwrite, Bool.and_true]
  have hlen : (storedBytes i s).length ≤ 8 := (length_storedBytes_le i s).trans (accessBytes_le i)
  rw [drivenPorts_lanes, commitLanes_map_range hwe fun k hk => ⟨?_, ?_⟩,
    List.take_of_length_le hlen]
  · exact laneAddr_of_lt_accessBytes f hc hx hdef (hk.trans_le (length_storedBytes_le i s))
  · have hwrite : isWrite i = true := by
      by_contra hread
      rw [storedBytes_of_read (Bool.eq_false_iff.2 hread)] at hk
      exact absurd hk (Nat.not_lt_zero k)
    change laneWdata (commandDecoder true (onPorts x s.cfg.idxW v).op) _ v k = _
    rw [hop, laneWdata_onPorts f hc hx hdef hwrite hk]

end OnPorts

/-- A defined command's step through the blocks leaves its operation's effect. -/
theorem blockStep_of_defined {s : State} {c : Command} {rest : List Command} {i : Instr}
    (f : Free s.cfg.idxW) (hc : s.cfg.legal = true) (hp : s.pending = c :: rest)
    (hd : decode c = .ok i) (hdef : Defined s.cfg i) :
    blockStep s f = .next (effect i { s with pending := rest }) := by
  have hv : packedVerdict s.cfg (decodeFields c.ctl) = none :=
    (packedVerdict_eq_none_iff _ _ c.wdata).2 ⟨i, hd, hdef⟩
  have hports := accessorPorts_of_defined (portVerdict_of_packedVerdict hv c.wdata) f s.buf
  have hwrite : (commandDecoder true (decodeFields c.ctl).op).isWrite = isWrite i := by
    rw [(opcode_index_of_toInstr hd).1, decoder_isWrite]
  have hagree : AgreeOnRead i { s with pending := rest } s := fun _ _ _ => rfl
  simp only [blockStep, hp, hv, hports, hwrite]
  refine congrArg Host.Outcome.next (State.ext_fields rfl ?_ rfl ?_)
  · rw [commitLanes_onPorts f hc hd hdef, effect_buf, storedBytes_congr hagree]
  · rw [effect_results, newResults_congr hagree]
    cases hi : isWrite i
    · rw [rdata_onPorts f hc hd hdef hi]
      rfl
    · rw [newResults_of_write hi, List.append_nil]
      rfl

/-- Idle through the blocks changes nothing (44_blocks.md R176). -/
theorem blockStep_of_idle {s : State} (f : Free s.cfg.idxW) (hp : s.pending = []) :
    blockStep s f = .next s := by
  have hbuf := (Proofs.idleEnablesNoLane s.cfg f (idlePorts s.cfg.idxW) s.buf rfl).2
  simp only [blockStep, hp, hbuf]
  exact congrArg Host.Outcome.next (State.ext_fields rfl rfl hp.symm rfl)

end Sys2Proof.Machine

namespace Sys2Proof.Proofs

open Sys2Proof Sys2Proof.Machine

/-- Settles O49: idle on both sides, the verdict's refusal on both sides, or the effect of the defined
operation on both sides. -/
theorem blocksAgreeWithStep : Obligations.BlocksAgreeWithStep := by
  intro s f hc
  cases hp : s.pending with
  | nil => rw [blockStep_of_idle f hp, step_of_idle hp]
  | cons c rest =>
    cases hv : packedVerdict s.cfg (decodeFields c.ctl) with
    | some r => rw [blockStep_of_packedVerdict hp hv, step_of_packedVerdict hp hv]
    | none =>
      obtain ⟨i, hd, hdef⟩ := (packedVerdict_eq_none_iff _ _ c.wdata).1 hv
      rw [blockStep_of_defined f hc hp hd hdef, step_of_defined hp hd hdef]

end Sys2Proof.Proofs
end
